-- ==== Sys2Proof/Word.lean ====
section
/-! DEFINITION. The word types of the core: fixed-width words are bit vectors, and the words whose
width is a parameter of the configuration (TS_W, DUR_W, EC_W) are naturals below `2 ^ width`
(00_scope.md R7, R10; assumption log 2). -/

namespace Sys2Proof

/-- An 8-bit word: a command word (R73), a frame byte (R31), an index register (R26, R29). -/
abbrev Byte := BitVec 8

/-- The 9-bit response `rsp[8:0] = ILL, DATA[7:0]` (R85). -/
abbrev Response := BitVec 9

/-- A 3-bit error code (R33, R210). -/
abbrev ErrorCode := BitVec 3

/-- A count of microseconds: a timestamp or a duration (R10: "Every value is a natural number"). -/
abbrev Micros := Nat

end Sys2Proof
end

