-- ==== Sys2Proof/Config.lean ====
section
/-! DEFINITION. The configuration of 00_scope.md R7 with its well-formedness (R8), the constants the source
fixes (R9), and the free values: what the spec leaves open. -/

namespace Sys2Proof

/-- The configuration, fixed when the core is built (R7). The defaults are R7's own: the decided
widths (D3, D4, D5) and the bit references (D11). The other parameters are OPEN and have none. -/
structure Config where
  TS_W : Nat := 32
  DUR_W : Nat := 16
  EC_W : Nat := 8
  RING_CAP : Nat
  SYNC_HIGH : Nat
  SYNC_LOW : Nat
  SYNC_TOL : Nat
  BIT1_HIGH : Nat := 400
  BIT1_LOW : Nat := 200
  BIT0_HIGH : Nat := 200
  BIT0_LOW : Nat := 400
  BIT_TOL : Nat
  PULSE_MIN : Nat
  PULSE_MAX : Nat
  deriving DecidableEq, Repr

/-- Data bits per frame (R9). -/
abbrev N_BITS : Nat := 56

/-- Bytes per frame (R9). -/
abbrev N_BYTES : Nat := 7

/-- Data edges per frame, `2 × N_BITS` (R9). -/
abbrev N_DATA_EDGES : Nat := 112

/-- Pairs of the sync pattern (R9). -/
abbrev N_SYNC_PAIRS : Nat := 4

/-- Durations the sync detector inspects (R9). -/
abbrev SYNC_WINDOW : Nat := 8

/-- R8: the constraints of a well-formed configuration. (Its last line, "all tolerances and
references are natural numbers", holds by type.) -/
def Config.wf (c : Config) : Bool :=
  decide (1 ≤ c.PULSE_MIN) && decide (c.PULSE_MIN ≤ c.PULSE_MAX)
    && decide (c.PULSE_MAX ≤ 2 ^ c.DUR_W - 1)
    && decide (120 ≤ c.RING_CAP) && decide (c.RING_CAP ≤ 256)
    && decide (c.DUR_W ≤ c.TS_W)
    && decide (N_DATA_EDGES < 2 ^ c.EC_W - 1)

/-- The spec's test configuration TC (D30, R7's last column). -/
def Config.TC : Config where
  RING_CAP := 120
  SYNC_HIGH := 600
  SYNC_LOW := 900
  SYNC_TOL := 100
  BIT_TOL := 50
  PULSE_MIN := 100
  PULSE_MAX := 1200

/-- FREE VALUE (R226, U8; assumption log 5): whether the edge goes first when an edge and a command
arrive together, at the `n`-th such draw. The spec leaves the order open and a model admits both. -/
opaque Config.edgeFirst (n : Nat) : Bool

/-- FREE VALUE (assumption log 9): the DATA of `RDSTAT 1` when `EC` has more than 8 bits and does not
fit in 8. R75 and R194 give only `zext_8(EC)`, a widening (R10), which is no value for such an `EC`. -/
opaque Config.wideEdgeCount (ecW ec : Nat) : Byte

end Sys2Proof
end

