-- ==== Sys2Proof/Syntax.lean ====
section
/-! DEFINITION. The transactions of the core as syntax: one constructor per row of
spec/opcode_table.json, and the words that carry them at the three ports (30_encoding.md R70 to R74). -/

namespace Sys2Proof

/-- The instructions of the core: the transactions of R74 (with R77's illegal words). -/
inductive Instr where
  /-- `EDGE t` (R71, R100): a signal edge with timestamp `t`. -/
  | edge (t : Micros)
  /-- `RESET` (R72, R240). -/
  | reset
  /-- `NOP a` (R78, R190): `a` is ignored. -/
  | nop (a : BitVec 3)
  /-- `POLL` (R160). -/
  | poll
  /-- `RDFRAME n` (R191), `n` from 0 to 6. -/
  | rdframe (n : BitVec 3)
  /-- `RDSTAT 0`, alias `RDSTATUS` (R193). -/
  | rdstat0
  /-- `RDSTAT 1`, alias `RDEC` (R194). -/
  | rdstat1
  /-- `RDSTAT 2`, alias `RDANCHOR` (R195). -/
  | rdstat2
  /-- `RDSTAT 3`, alias `RDIDX` (R196). -/
  | rdstat3
  /-- An illegal command word (R77, R197). -/
  | illegal (w : Byte)
  deriving DecidableEq, Repr

/-- The three input ports (R70). The port, not a bit pattern, selects the format. -/
inductive Port where
  | edge
  | command
  | reset
  deriving DecidableEq, Repr

/-- A transaction as its port carries it: format E, C or R (R71 to R73). -/
inductive PortWord where
  /-- Format E: the timestamp word. -/
  | edge (w : Nat)
  /-- Format C: the command word `CMD[7:0]`. -/
  | command (w : Byte)
  /-- Format R: no payload. -/
  | reset
  deriving DecidableEq, Repr

/-- The port a transaction arrives on. -/
def PortWord.port : PortWord → Port
  | .edge _ => .edge
  | .command _ => .command
  | .reset => .reset

/-- R79: the length in bits of every transaction of a port. -/
def Port.bits (c : Config) : Port → Nat
  | .edge => c.TS_W
  | .command => 8
  | .reset => 0

end Sys2Proof
end

