-- ==== Sys2Proof/WellFormed.lean ====
section
/-! DEFINITION. Which terms of `Instr` stand for a transaction of the core, by the table of legal
command words (30_encoding.md R74) and the width of format E (R71). -/

namespace Sys2Proof

/-- R74: "The legal command words are exactly the following 20 of the 256", as that table's ranges:
NOP 0x00 to 0x07, POLL 0x10, RDFRAME 0x20 to 0x26, RDSTAT 0x30 to 0x33. -/
def isLegalWord (w : Byte) : Bool :=
  decide (w ≤ 0x07) || w == 0x10 || (decide (0x20 ≤ w) && decide (w ≤ 0x26))
    || (decide (0x30 ≤ w) && decide (w ≤ 0x33))

/-- A well-formed instruction under a configuration: a timestamp has TS_W bits (R71), RDFRAME's index
is 0 to 6 (R74), and an illegal word is none of the legal ones (R77). -/
def Instr.wf (c : Config) : Instr → Bool
  | .edge t => decide (t < 2 ^ c.TS_W)
  | .reset => true
  | .nop _ => true
  | .poll => true
  | .rdframe n => decide (n ≤ 6)
  | .rdstat0 => true
  | .rdstat1 => true
  | .rdstat2 => true
  | .rdstat3 => true
  | .illegal w => !isLegalWord w

end Sys2Proof
end

