-- ==== Sys2Proof/Decode.lean ====
section
/-! DEFINITION. The decoder, total on every word of every port (30_encoding.md R70 to R79), the
rejection by name of a bit string whose length no port has, and the encoder, from the same tables. -/

namespace Sys2Proof

/-- The low `n` bits of a natural, `v[n-1:0]` (R10). -/
def lowBits (n v : Nat) : Nat := v % 2 ^ n

/-- R73: `OP`, bits 7:4 of a command word. -/
def cmdOp (w : Byte) : BitVec 4 := w.extractLsb' 4 4

/-- R73: `RSV`, bit 3 of a command word. -/
def cmdRsv (w : Byte) : Bool := w.getLsbD 3

/-- R73, R75: `ARG`, bits 2:0 of a command word. -/
def cmdArg (w : Byte) : BitVec 3 := w.extractLsb' 0 3

/-- R77: the five conditions (a) to (e) that make a command word illegal. -/
def isIllegalWord (w : Byte) : Bool :=
  cmdRsv w
    || decide (0x4 ≤ cmdOp w)
    || (cmdOp w == 0x1 && cmdArg w != 0)
    || (cmdOp w == 0x2 && cmdArg w == 7)
    || (cmdOp w == 0x3 && decide (4 ≤ cmdArg w))

/-- R75: the status view that `ARG` selects, for a legal `RDSTAT`. -/
def decodeRdstat (arg : BitVec 3) : Instr :=
  if arg = 0 then .rdstat0
  else if arg = 1 then .rdstat1
  else if arg = 2 then .rdstat2
  else .rdstat3

/-- R74, R77, R223: the legality test comes first; then `OP` selects the operation. -/
def decodeCommand (w : Byte) : Instr :=
  if isIllegalWord w then .illegal w
  else if cmdOp w = 0x0 then .nop (cmdArg w)
  else if cmdOp w = 0x1 then .poll
  else if cmdOp w = 0x2 then .rdframe (cmdArg w)
  else decodeRdstat (cmdArg w)

/-- R70: the port selects the format; R71, R76: the timestamp word is taken whole, as `TS_W` bits. -/
def decode (c : Config) : PortWord → Instr
  | .edge w => .edge (lowBits c.TS_W w)
  | .command w => decodeCommand w
  | .reset => .reset

/-- A transaction's bits as one number; format R has none. -/
def PortWord.value : PortWord → Nat
  | .edge w => w
  | .command w => w.toNat
  | .reset => 0

/-- Why a bit string is no transaction of a port. -/
inductive DecodeReject where
  /-- R79: every transaction of a port has exactly that port's length. -/
  | wrongLength (p : Port) (nbits : Nat)
  /-- The number given does not fit in the length given. -/
  | wordTooWide (nbits w : Nat)
  deriving DecidableEq, Repr

/-- R79: a bit string of `nbits` bits at a port, as that port's word, or why it is none. -/
def wordAt (c : Config) (p : Port) (nbits w : Nat) : Except DecodeReject PortWord :=
  if nbits ≠ p.bits c then .error (.wrongLength p nbits)
  else if 2 ^ nbits ≤ w then .error (.wordTooWide nbits w)
  else
    match p with
    | .edge => .ok (.edge w)
    | .command => .ok (.command (BitVec.ofNat 8 w))
    | .reset => .ok .reset

/-- Decoding a bit string at a port: "A decoder learns the length from the port alone" (R79). -/
def decodeAt (c : Config) (p : Port) (nbits w : Nat) : Except DecodeReject Instr :=
  (wordAt c p nbits w).map (decode c)

/-- The word of the opcode table's row of `nbits` bits: 32 is the edge port's (TS_W = 32), 8 the
command port's, 0 the reset input's (assumption log 13). -/
def tableWord (nbits w : Nat) : Option PortWord :=
  if nbits = 32 then some (.edge (lowBits 32 w))
  else if nbits = 8 then some (.command (BitVec.ofNat 8 w))
  else if nbits = 0 then some .reset
  else none

/-- The instruction the decoder reads from a word of the opcode table, under the table's widths. -/
def decodeTableWord (nbits w : Nat) : Option Instr :=
  (tableWord nbits w).map (decode Config.TC)

/-- The word of a well-formed instruction, from R71, R72 and the table of R74 (`OP`, `RSV`, `ARG`). -/
def encode : Instr → PortWord
  | .edge t => .edge t
  | .reset => .reset
  | .nop a => .command (0b00000#5 ++ a)
  | .poll => .command 0b00010000
  | .rdframe n => .command (0b00100#5 ++ n)
  | .rdstat0 => .command 0b00110000
  | .rdstat1 => .command 0b00110001
  | .rdstat2 => .command 0b00110010
  | .rdstat3 => .command 0b00110011
  | .illegal w => .command w

end Sys2Proof
end

