-- ==== Sys2Proof/Machine/State.lean ====
section
/-! DEFINITION. The state of the core as plain data: every element of 10_state.md R20 under the spec's own
name, the outputs of the last step (R35), and the model's own fields (configuration, port inputs,
draw counter); the reset state (70_reset_and_hazards.md R240); why a step can stop. -/

namespace Sys2Proof.Machine

/-- One listed entry of the ring buffer: its index and its value. The unit is an entry of `DUR_W`
bits, not a byte (R11). -/
abbrev Cell := Nat × Nat

/-- The ring-buffer space (R50 (a)): the entries that differ from what an unlisted index reads as,
indices strictly rising (assumption log 3). -/
abbrev Memory := List Cell

/-- What stands at the input ports together (R226): at most one edge, one command, and RESET. A trace
line of R90 is a presentation of one transaction (assumption log 4). -/
structure Presentation where
  edge : Option Nat := none
  command : Option Byte := none
  reset : Bool := false
  deriving DecidableEq, Repr

/-- The error event a step emits on the output `err`: the pair `(code, info)` of R211. -/
structure ErrEvent where
  code : ErrorCode
  info : Nat
  deriving DecidableEq, Repr

/-- The error kinds the core raises, each with its `info` (R210). Codes 5 and 7 are reserved and no
kind of the core (R216). -/
inductive CoreError where
  /-- R212: a duration outside the envelope; `info = d`. -/
  | pulseTiming (d : Micros)
  /-- R153, R213: the edge count exceeds the frame; `info = EC`. -/
  | frameOverrun (ec : Nat)
  /-- R214: a pair that classifies NONE; `info` its index. -/
  | bitDecode (j : Nat)
  /-- R215: a checksum mismatch; `info` holds `c` in bits 15:8 and `byte[6]` in bits 7:0 (R167). -/
  | checksum (c byte6 : Byte)
  /-- R217: an illegal command word; `info = CMD`. -/
  | illegalCommand (w : Byte)
  deriving DecidableEq, Repr

/-- The state. The elements from `LET` to `LAST_ERR` are exactly those of R20's table. -/
structure State where
  /-- The configuration (R7); no step writes it (assumption log 1). -/
  cfg : Config
  /-- R23: the timestamp of the most recent edge, below `2 ^ TS_W`. -/
  LET : Micros
  /-- R24: primed. -/
  PR : Bool
  /-- R25: the ring buffer. -/
  RB : Memory
  /-- R26: the index of the newest entry. -/
  IDX : Byte
  /-- R27: the edge counter, below `2 ^ EC_W`. -/
  EC : Nat
  /-- R28: sync found. -/
  SF : Bool
  /-- R29: the index of the last duration of the sync pattern. -/
  ANCHOR : Byte
  /-- R30: frame ready. -/
  FR : Bool
  /-- R31: the most recently validated frame. -/
  FRAME : Vector Byte 7
  /-- R32: `FRAME` holds a validated frame. -/
  FV : Bool
  /-- R33: the code of the most recent error event. -/
  LAST_ERR : ErrorCode
  /-- R35, R85: the response of the last step, if it was a command's (assumption log 7). -/
  rsp : Option Response
  /-- R35, R211: the error event of the last step, if it raised one (assumption log 7). -/
  err : Option ErrEvent
  /-- What the three ports present, oldest first (R70, R226; assumption log 4). -/
  inputs : List Presentation
  /-- How many open orders have been drawn (assumption log 6). -/
  draws : Nat
  deriving DecidableEq, Repr

/-- R219: "The core never halts, never stops responding and never enters an unrecoverable state". So
nothing raises a fault and there is none (assumption log 15): every error the spec names is
recovered within its step and is an output. -/
inductive Fault where
  deriving DecidableEq, Repr

/-- Why a step is refused. -/
inductive Refusal where
  /-- Raised by an arm of `exec` whose instruction has no meaning yet; safe. No arm is left so. -/
  | notModelled (mnemonic : String)
  /-- Raised by `step` when the configuration fails R8: "A model refuses a configuration that fails
  one" (U13; assumption log 10); safe. -/
  | illFormedConfig
  deriving DecidableEq, Repr

/-- R240, R20's last column: every element at its reset value, under a configuration `c`. -/
def State.resetWith (c : Config) : State where
  cfg := c
  LET := 0
  PR := false
  RB := []
  IDX := BitVec.ofNat 8 (c.RING_CAP - 1)
  EC := 0
  SF := false
  ANCHOR := 0
  FR := false
  FRAME := Vector.replicate 7 0
  FV := false
  LAST_ERR := 0
  rsp := none
  err := none
  inputs := []
  draws := 0

/-- The machine right after power-on, which applies RESET (R241), under the spec's test configuration
TC (assumption log 1), with nothing at the ports. -/
def State.reset : State := State.resetWith Config.TC

end Sys2Proof.Machine
end

