-- ==== Sys2Proof/Machine/Ops.lean ====
section
/-! DEFINITION. The named operations every meaning shares: modular arithmetic (00_scope.md R10, R17), the
ring-buffer memory (20_memory.md R50, R51), raising an error as one operation (60_exceptions.md R211,
R218), responding (30_encoding.md R85), and `CaptureReset()` (00_scope.md R14). -/

namespace Sys2Proof.Machine

/-- R10: `a +_n b`, addition modulo `2 ^ n`. -/
def addMod (n a b : Nat) : Nat := (a + b) % 2 ^ n

/-- R10: `a -_n b`, the least non-negative residue of `a - b` modulo `2 ^ n`. -/
def subMod (n a b : Nat) : Nat := (((a : Int) - (b : Int)) % ((2 ^ n : Nat) : Int)).toNat

/-- R51: `(expr) mod RING_CAP`, with `expr` evaluated in ℤ first. -/
def ringIndex (c : Config) (e : Int) : Nat := (e % (c.RING_CAP : Int)).toNat

/-- What an unlisted ring entry reads as: the reset contents of R25, R240. -/
def Memory.unlisted : Nat := 0

/-- The entry at index `i`. -/
def Memory.read : Memory → Nat → Nat
  | [], _ => Memory.unlisted
  | (j, v) :: rest, i => if j = i then v else Memory.read rest i

/-- Put `v` at index `i` in front of entries with larger indices; the value an unlisted entry reads
as is not listed. -/
def Memory.cons (i v : Nat) (rest : Memory) : Memory :=
  if v = Memory.unlisted then rest else (i, v) :: rest

/-- Write `v` at index `i`, keeping the canonical form. -/
def Memory.write : Memory → Nat → Nat → Memory
  | [], i, v => Memory.cons i v []
  | (j, u) :: rest, i, v =>
    if i < j then Memory.cons i v ((j, u) :: rest)
    else if i = j then Memory.cons i v rest
    else (j, u) :: Memory.write rest i v

/-- The canonical form: indices strictly rising, and no entry equal to what an unlisted one reads as. -/
def Memory.wf (m : Memory) : Bool :=
  decide (m.Pairwise (fun a b => a.1 < b.1)) && m.all (fun c => c.2 != Memory.unlisted)

/-- R11, R51: `RB[(e) mod RING_CAP]`. -/
def ringRead (c : Config) (rb : Memory) (e : Int) : Nat := Memory.read rb (ringIndex c e)

/-- A step begins with no response and no error event: both are outputs of one step (R35, R211). -/
def clearOutputs (s : State) : State := { s with rsp := none, err := none }

/-- R14: `CaptureReset()`. -/
def captureReset (s : State) : State :=
  { s with EC := 0, SF := false, ANCHOR := 0, FR := false }

/-- R210: the code of an error kind. -/
def CoreError.code : CoreError → ErrorCode
  | .pulseTiming _ => 1
  | .frameOverrun _ => 2
  | .bitDecode _ => 3
  | .checksum _ _ => 4
  | .illegalCommand _ => 6

/-- R210: the payload of an error event. -/
def CoreError.info : CoreError → Nat
  | .pulseTiming d => d
  | .frameOverrun ec => ec
  | .bitDecode j => j
  | .checksum c byte6 => (c ++ byte6).toNat
  | .illegalCommand w => w.toNat

/-- R12, R211, R218: raise an error. The step emits the event `(code, info)` and sets `LAST_ERR` to the
code; nothing is saved, there is no handler, and the step goes on with its recovery. -/
def raiseError (e : CoreError) (s : State) : State :=
  { s with err := some ⟨e.code, e.info⟩, LAST_ERR := e.code }

/-- R12, R85: respond `ILL, DATA[7:0]`. -/
def respond (ill : Bool) (data : Byte) (s : State) : State :=
  { s with rsp := some (BitVec.ofBool ill ++ data) }

end Sys2Proof.Machine
end

