-- ==== Sys2Proof/Machine/Flags.lean ====
section
/-! DEFINITION. The views computed from flags: `STATUS` (10_state.md R34), the level `rdy` (R35) and the
capture phase (R22). -/

namespace Sys2Proof.Machine

/-- R34: `STATUS`, from bit 7 down: 0, `LAST_ERR[2:0]`, `PR`, `FV`, `FR`, `SF`. -/
def statusView (s : State) : Byte :=
  0#1 ++ s.LAST_ERR ++ BitVec.ofBool s.PR ++ BitVec.ofBool s.FV ++ BitVec.ofBool s.FR
    ++ BitVec.ofBool s.SF

/-- R35: the output level `rdy`, equal to `FR` at all times. -/
def rdy (s : State) : Bool := s.FR

/-- R22: the capture phases; `noPhase` is the pair no transaction produces. -/
inductive Phase where
  | searching
  | data
  | ready
  | noPhase
  deriving DecidableEq, Repr

/-- R22: the phase is the pair `(SF, FR)`. -/
def phase (s : State) : Phase :=
  match s.SF, s.FR with
  | false, false => .searching
  | true, false => .data
  | true, true => .ready
  | false, true => .noPhase

end Sys2Proof.Machine
end

