-- ==== Sys2Proof/Machine/Operands.lean ====
section
/-! DEFINITION. What the meanings read: the tolerance predicate (00_scope.md R13), the duration of an edge and its
envelope (40_edge_capture.md R102, R104), the sync window (41_sync_detector.md R131), the data pairs, their
classification, the packed bytes and the checksum (42_frame_assembler.md R161 to R166), and the consumer's
register views (30_encoding.md R75). -/

namespace Sys2Proof.Machine

/-- R13: `ref - tol ≤ d ≤ ref + tol`, evaluated in ℤ. -/
def within (d ref tol : Nat) : Bool :=
  decide ((ref : Int) - (tol : Int) ≤ (d : Int)) && decide ((d : Int) ≤ (ref : Int) + (tol : Int))

/-- R102: the duration of an edge with timestamp `t` after one with timestamp `prev`. -/
def duration (c : Config) (t prev : Micros) : Micros := subMod c.TS_W t prev

/-- R104: a duration outside `[PULSE_MIN, PULSE_MAX]`, both bounds inclusive, is noise. -/
def isNoise (c : Config) (d : Micros) : Bool := decide (d < c.PULSE_MIN) || decide (c.PULSE_MAX < d)

/-- R131: pair `k` of the sync window that ends at index `i`; the older duration is the high (R132). -/
def syncPairMatch (c : Config) (rb : Memory) (i : Nat) (k : Nat) : Bool :=
  within (ringRead c rb ((i : Int) - 7 + 2 * (k : Int))) c.SYNC_HIGH c.SYNC_TOL
    && within (ringRead c rb ((i : Int) - 6 + 2 * (k : Int))) c.SYNC_LOW c.SYNC_TOL

/-- R131: `SyncMatch(i)`, for all four pairs. The window is the last 8 stored entries, those of an earlier
frame included (R131's corner cases, R133 (c); against R252's inference, assumption log 18). -/
def syncMatch (c : Config) (rb : Memory) (i : Nat) : Bool :=
  syncPairMatch c rb i 0 && syncPairMatch c rb i 1 && syncPairMatch c rb i 2
    && syncPairMatch c rb i 3

/-- R161: the high duration of data pair `j`. -/
def pairHigh (c : Config) (rb : Memory) (anchor j : Nat) : Nat :=
  ringRead c rb ((anchor : Int) + 1 + 2 * (j : Int))

/-- R161: the low duration of data pair `j`. -/
def pairLow (c : Config) (rb : Memory) (anchor j : Nat) : Nat :=
  ringRead c rb ((anchor : Int) + 2 + 2 * (j : Int))

/-- R162: `Match1(h, l)`. -/
def match1 (c : Config) (h l : Nat) : Bool :=
  within h c.BIT1_HIGH c.BIT_TOL && within l c.BIT1_LOW c.BIT_TOL

/-- R162: `Match0(h, l)`. -/
def match0 (c : Config) (h l : Nat) : Bool :=
  within h c.BIT0_HIGH c.BIT_TOL && within l c.BIT0_LOW c.BIT_TOL

/-- R163: `Classify(h, l)`: the bit, or `none` for NONE (matches neither, or matches both). -/
def classify (c : Config) (h l : Nat) : Option Bool :=
  if match1 c h l && !match0 c h l then some true
  else if match0 c h l && !match1 c h l then some false
  else none

/-- R165: byte `n` of the packed bits: `bit[8n]` is its bit 7 and `bit[8n+7]` its bit 0. -/
def packByte (bits : List Bool) (n : Nat) : Byte :=
  BitVec.ofBool (bits.getD (8 * n) false) ++ BitVec.ofBool (bits.getD (8 * n + 1) false)
    ++ BitVec.ofBool (bits.getD (8 * n + 2) false) ++ BitVec.ofBool (bits.getD (8 * n + 3) false)
    ++ BitVec.ofBool (bits.getD (8 * n + 4) false) ++ BitVec.ofBool (bits.getD (8 * n + 5) false)
    ++ BitVec.ofBool (bits.getD (8 * n + 6) false) ++ BitVec.ofBool (bits.getD (8 * n + 7) false)

/-- R165: the seven bytes of a frame's 56 bits. -/
def packFrame (bits : List Bool) : Vector Byte 7 :=
  #v[packByte bits 0, packByte bits 1, packByte bits 2, packByte bits 3, packByte bits 4,
    packByte bits 5, packByte bits 6]

/-- R166: the sum of the first six bytes as unsigned numbers, reduced once modulo 256. -/
def checksum (f : Vector Byte 7) : Byte :=
  BitVec.ofNat 8
    ((f[0].toNat + f[1].toNat + f[2].toNat + f[3].toNat + f[4].toNat + f[5].toNat) % 256)

/-- R75, R194: the 8-bit view of `EC`, zero-extended when narrower than 8 bits. An `EC` that 8 bits
cannot hold (only with `EC_W > 8`) has no stated view: a free value (assumption log 9). -/
def edgeCountView (s : State) : Byte :=
  if s.EC < 2 ^ 8 then BitVec.ofNat 8 s.EC else Config.wideEdgeCount s.cfg.EC_W s.EC

end Sys2Proof.Machine
end

