-- ==== Sys2Proof/Machine/Edge.lean ====
section
/-! DEFINITION. EDGE: edge capture, timing classifier, ring-buffer controller, sync check and frame-phase
check, in the order of 40_edge_capture.md R100 (R221). -/

namespace Sys2Proof.Machine

/-- R105: the index an append writes, `(IDX + 1) mod RING_CAP`. -/
def appendIndex (s : State) : Nat := ringIndex s.cfg ((s.IDX.toNat : Int) + 1)

/-- R105: the ring-buffer controller advances the index, then stores the low `DUR_W` bits. -/
def append (d : Micros) (s : State) : State :=
  { s with
    IDX := BitVec.ofNat 8 (appendIndex s)
    RB := Memory.write s.RB (appendIndex s) (lowBits s.cfg.DUR_W d) }

/-- R106: `EC <- EC +_EC_W 1`, in every phase. -/
def countEdge (s : State) : State := { s with EC := addMod s.cfg.EC_W s.EC 1 }

/-- R107, R131: the sync check on the window that ends at the new `IDX`; a match anchors, or
re-anchors (R134), and a failed match writes nothing. -/
def syncCheck (s : State) : State :=
  if syncMatch s.cfg s.RB s.IDX.toNat then { s with SF := true, ANCHOR := s.IDX, EC := 0 } else s

/-- R153, R100: the overrun of a frame. `CaptureReset()` stands before the raise, and "a later read in the
same step sees an earlier write" (R11), so the `EC` that the raise reads is 0 (assumption log 8). -/
def overrun (s : State) : State :=
  raiseError (.frameOverrun (captureReset s).EC) (captureReset s)

/-- R150 to R153: the frame-phase check, when `SF = 1`. -/
def phaseCheck (s : State) : State :=
  if s.SF then
    if s.EC = N_DATA_EDGES then { s with FR := true }
    else if N_DATA_EDGES < s.EC then overrun s
    else s
  else s

/-- R105 to R107: what follows a valid duration. -/
def ingest (d : Micros) (s : State) : State := phaseCheck (syncCheck (countEdge (append d s)))

/-- R104, R105: the timing classifier, while no frame is pending. -/
def classifyPulse (d : Micros) (s : State) : State :=
  if isNoise s.cfg d then raiseError (.pulseTiming d) (captureReset s) else ingest d s

/-- R101 to R104: the step of an edge with timestamp `t`, on a state whose outputs are clear. -/
def edgeStep (t : Micros) (s : State) : State :=
  if !s.PR then { s with LET := t, PR := true }
  else if s.FR then { s with LET := t }
  else classifyPulse (duration s.cfg t s.LET) { s with LET := t }

/-- R100: `EDGE t`. The timestamp has `TS_W` bits (R71). -/
def execEdge (t : Micros) (s : State) : Host.Outcome State Fault Refusal :=
  .next (edgeStep (lowBits s.cfg.TS_W t) (clearOutputs s))

end Sys2Proof.Machine
end

