-- ==== Sys2Proof/Machine/Poll.lean ====
section
/-! DEFINITION. POLL: the bit-duration decoder, the packer and the checksum validator
(42_frame_assembler.md R160 to R171). -/

namespace Sys2Proof.Machine

/-- R160, R164, R222: classify `n` pairs from pair `j` on, in increasing order: their bits, or the
index of the first pair that classifies NONE. -/
def decodePairs (c : Config) (rb : Memory) (anchor : Nat) : (n j : Nat) → Except Nat (List Bool)
  | 0, _ => .ok []
  | n + 1, j =>
    match classify c (pairHigh c rb anchor j) (pairLow c rb anchor j) with
    | none => .error j
    | some b =>
      match decodePairs c rb anchor n (j + 1) with
      | .error k => .error k
      | .ok bs => .ok (b :: bs)

/-- R164: the first unclassifiable pair aborts the frame. -/
def pollBitError (j : Nat) (s : State) : State :=
  respond false 0x83 (raiseError (.bitDecode j) (captureReset s))

/-- R167: the checksum disagrees. -/
def pollChecksumError (c byte6 : Byte) (s : State) : State :=
  respond false 0x84 (raiseError (.checksum c byte6) (captureReset s))

/-- R168: the frame is validated. `LAST_ERR` is not changed. -/
def pollOk (f : Vector Byte 7) (s : State) : State :=
  respond false 0x01 (captureReset { s with FRAME := f, FV := true })

/-- R166 to R168: the checksum test on a packed frame. -/
def validateFrame (f : Vector Byte 7) (s : State) : State :=
  if checksum f ≠ f[6] then pollChecksumError (checksum f) f[6] s else pollOk f s

/-- R160: the decode of the pending frame, on a state whose outputs are clear; NOT_READY when there is
none (R169). -/
def pollStep (s : State) : State :=
  if !s.FR then respond false 0x00 s
  else
    match decodePairs s.cfg s.RB s.ANCHOR.toNat N_BITS 0 with
    | .error j => pollBitError j s
    | .ok bits => validateFrame (packFrame bits) s

/-- R160: `POLL`. -/
def execPoll (s : State) : Host.Outcome State Fault Refusal := .next (pollStep (clearOutputs s))

end Sys2Proof.Machine
end

