-- ==== Sys2Proof/Machine/Reads.lean ====
section
/-! DEFINITION. The consumer commands other than POLL: NOP, RDFRAME, RDSTAT 0 to 3 and the illegal words
(43_consumer_reads.md R190 to R198). -/

namespace Sys2Proof.Machine

/-- R85: a legal command that only answers `DATA`. -/
def answer (data : Byte) (s : State) : State := respond false data (clearOutputs s)

/-- R197, R217: an illegal command word raises IllegalCommand, responds `0x100` and changes nothing
else. -/
def illegalCommand (w : Byte) (s : State) : State :=
  respond true 0x00 (raiseError (.illegalCommand w) (clearOutputs s))

/-- R190: `NOP a`; `a` is ignored (R78). -/
def execNop (_a : BitVec 3) (s : State) : Host.Outcome State Fault Refusal := .next (answer 0x00 s)

/-- R191: `RDFRAME n` answers `FRAME[n]`. "`n = 7` (word 0x27) is illegal (rule R197)"; the decoder gives
that word as illegal, and the term with `n = 7` acts as it (assumption log 11). -/
def execRdframe (n : BitVec 3) (s : State) : Host.Outcome State Fault Refusal :=
  if h : n.toNat < N_BYTES then .next (answer s.FRAME[n.toNat] s) else .next (illegalCommand 0x27 s)

/-- R193: `RDSTAT 0` answers `STATUS`. -/
def execRdstat0 (s : State) : Host.Outcome State Fault Refusal := .next (answer (statusView s) s)

/-- R194: `RDSTAT 1` answers `EC`. -/
def execRdstat1 (s : State) : Host.Outcome State Fault Refusal := .next (answer (edgeCountView s) s)

/-- R195: `RDSTAT 2` answers `ANCHOR`. -/
def execRdstat2 (s : State) : Host.Outcome State Fault Refusal := .next (answer s.ANCHOR s)

/-- R196: `RDSTAT 3` answers `IDX`. -/
def execRdstat3 (s : State) : Host.Outcome State Fault Refusal := .next (answer s.IDX s)

/-- R197: an illegal command word. -/
def execIllegal (w : Byte) (s : State) : Host.Outcome State Fault Refusal :=
  .next (illegalCommand w s)

end Sys2Proof.Machine
end

