-- ==== Sys2Proof/Machine/ResetOp.lean ====
section
/-! DEFINITION. RESET (70_reset_and_hazards.md R240). -/

namespace Sys2Proof.Machine

/-- R240: every element of R20 takes its reset value; no response, no error event. The configuration,
the transactions still at the ports and the draw counter are no elements of the core and stay
(assumption log 12). -/
def resetCore (s : State) : State :=
  { State.resetWith s.cfg with inputs := s.inputs, draws := s.draws }

/-- R240: `RESET`. -/
def execReset (s : State) : Host.Outcome State Fault Refusal := .next (resetCore s)

end Sys2Proof.Machine
end

