-- ==== Sys2Proof/Machine/Dispatch.lean ====
section
/-! DEFINITION. One arm per instruction: the call of its meaning. -/

namespace Sys2Proof.Machine

/-- The meaning of an instruction. -/
def exec (i : Instr) (s : State) : Host.Outcome State Fault Refusal :=
  match i with
  | .edge t => Sys2Proof.Machine.execEdge t s
  | .reset => Sys2Proof.Machine.execReset s
  | .nop a => Sys2Proof.Machine.execNop a s
  | .poll => Sys2Proof.Machine.execPoll s
  | .rdframe n => Sys2Proof.Machine.execRdframe n s
  | .rdstat0 => Sys2Proof.Machine.execRdstat0 s
  | .rdstat1 => Sys2Proof.Machine.execRdstat1 s
  | .rdstat2 => Sys2Proof.Machine.execRdstat2 s
  | .rdstat3 => Sys2Proof.Machine.execRdstat3 s
  | .illegal w => Sys2Proof.Machine.execIllegal w s

end Sys2Proof.Machine
end

