-- ==== Sys2Proof/Machine/Ports.lean ====
section
/-! DEFINITION. Taking the next transaction from the ports: what stands for fetching an instruction in a block
that runs no program (10_state.md R21, 30_encoding.md R70, 60_exceptions.md R226). -/

namespace Sys2Proof.Machine

/-- A presentation of one transaction. -/
def Presentation.ofWord : PortWord → Presentation
  | .edge w => { edge := some w }
  | .command w => { command := some w }
  | .reset => { reset := true }

/-- Nothing is left at the ports of a presentation. -/
def Presentation.isEmpty (p : Presentation) : Bool :=
  p.edge.isNone && p.command.isNone && !p.reset

/-- What is left of a presentation stays ahead of the later ones. -/
def Presentation.before (p : Presentation) (rest : List Presentation) : List Presentation :=
  if p.isEmpty then rest else p :: rest

/-- What the ports give a step. -/
inductive Fetched where
  /-- No transaction is presented: the core stays as it is. -/
  | idle (s : State)
  /-- The transaction to perform, and the state with it taken from its port. -/
  | word (x : PortWord) (s : State)
  deriving DecidableEq, Repr

/-- Take the edge of the oldest presentation. -/
def takeEdge (t : Nat) (p : Presentation) (rest : List Presentation) (s : State) : Fetched :=
  .word (.edge t) { s with inputs := Presentation.before { p with edge := none } rest }

/-- Take the command of the oldest presentation. -/
def takeCommand (w : Byte) (p : Presentation) (rest : List Presentation) (s : State) : Fetched :=
  .word (.command w) { s with inputs := Presentation.before { p with command := none } rest }

/-- R226: transactions are applied one at a time. An edge and a command that arrive together are
applied in an order the spec leaves open (a free value, U8); RESET is applied after the others. -/
def fetch (s : State) : Fetched :=
  match s.inputs with
  | [] => .idle s
  | p :: rest =>
    match p.edge, p.command with
    | some t, some w =>
      if Config.edgeFirst s.draws then takeEdge t p rest { s with draws := s.draws + 1 }
      else takeCommand w p rest { s with draws := s.draws + 1 }
    | some t, none => takeEdge t p rest s
    | none, some w => takeCommand w p rest s
    | none, none =>
      if p.reset then .word .reset { s with inputs := rest } else .idle { s with inputs := rest }

end Sys2Proof.Machine
end

