-- ==== Sys2Proof/Machine/Step.lean ====
section
/-! DEFINITION. One step of the core: one transaction, taken from the ports, decoded and performed
(20_memory.md R58), and the placing of a word where the next step takes it. -/

namespace Sys2Proof.Machine

/-- R58: one transaction is one step. A configuration that fails R8 is refused; with nothing
presented the core stays as it is, and the step has no output (assumption log 4). -/
def step (s : State) : Host.Outcome State Fault Refusal :=
  if s.cfg.wf then
    match fetch s with
    | .idle s' => .next (clearOutputs s')
    | .word x s' => exec (decode s'.cfg x) s'
  else .refused .illFormedConfig

/-- The state with a transaction presented alone, ahead of whatever stands at the ports. -/
def State.present (x : PortWord) (s : State) : State :=
  { s with inputs := Presentation.ofWord x :: s.inputs }

/-- The state with a word of the opcode table presented, so that the very next step performs it: the
table's length of the row selects the port (R70, R79). A length of no row presents nothing. -/
def State.withFetchWord (s : State) (nbits w : Nat) : State :=
  match tableWord nbits w with
  | some x => State.present x s
  | none => s

end Sys2Proof.Machine
end

