-- ==== Sys2Proof/Machine/Trace.lean ====
section
/-! DEFINITION. Traces, the core's equivalent of programs: their lines, the pseudo-instructions, the encoding
as text and the assembler (30_encoding.md R90 to R92; assumption log 14). -/

namespace Sys2Proof.Machine

/-- R90, R91: the lines of a trace. -/
inductive TraceLine where
  | edgeAt (t : Nat)
  | reset
  | nop (a : Nat)
  | poll
  | rdframe (n : Nat)
  | rdstat (n : Nat)
  /-- `.cmd w`: the raw command word. -/
  | rawCmd (w : Nat)
  | pulse (d : Nat)
  | pair (h l : Nat)
  | syncPair
  | preamble
  | bit1
  | bit0
  | byte (v : Nat)
  | frame7 (b0 b1 b2 b3 b4 b5 b6 : Nat)
  | frame6 (b0 b1 b2 b3 b4 b5 : Nat)
  | rdStatus
  | rdEc
  | rdAnchor
  | rdIdx
  deriving DecidableEq, Repr

/-- R90: "An operand outside its legal range is a syntax error." -/
def TraceLine.legal (c : Config) : TraceLine → Bool
  | .edgeAt t => decide (t < 2 ^ c.TS_W)
  | .reset => true
  | .nop a => decide (a ≤ 7)
  | .poll => true
  | .rdframe n => decide (n ≤ 6)
  | .rdstat n => decide (n ≤ 3)
  | .rawCmd w => decide (w ≤ 255)
  | .pulse _ => true
  | .pair _ _ => true
  | .syncPair => true
  | .preamble => true
  | .bit1 => true
  | .bit0 => true
  | .byte v => decide (v ≤ 255)
  | .frame7 b0 b1 b2 b3 b4 b5 b6 => [b0, b1, b2, b3, b4, b5, b6].all (fun b => decide (b ≤ 255))
  | .frame6 b0 b1 b2 b3 b4 b5 => [b0, b1, b2, b3, b4, b5].all (fun b => decide (b ≤ 255))
  | .rdStatus => true
  | .rdEc => true
  | .rdAnchor => true
  | .rdIdx => true

/-- R91: the pair of durations of a bit. -/
def bitDurations (c : Config) (b : Bool) : List Nat :=
  if b then [c.BIT1_HIGH, c.BIT1_LOW] else [c.BIT0_HIGH, c.BIT0_LOW]

/-- R91: `BYTE v`, most significant bit first. -/
def byteDurations (c : Config) (v : Nat) : List Nat :=
  [7, 6, 5, 4, 3, 2, 1, 0].flatMap (fun k => bitDurations c (v.testBit k))

/-- R91: the bytes of `FRAME7`. -/
def frameDurations (c : Config) (bs : List Nat) : List Nat := bs.flatMap (byteDurations c)

/-- R91: `SYNCPAIR`. -/
def syncPairDurations (c : Config) : List Nat := [c.SYNC_HIGH, c.SYNC_LOW]

/-- R91: `PREAMBLE`, `SYNCPAIR` four times. -/
def preambleDurations (c : Config) : List Nat :=
  syncPairDurations c ++ syncPairDurations c ++ syncPairDurations c ++ syncPairDurations c

/-- R91: the timestamps of a run of `PULSE d`, from the running timestamp `T`. -/
def pulseTimes (c : Config) (T : Nat) : List Nat → List Nat
  | [] => []
  | d :: ds => addMod c.TS_W T d :: pulseTimes c (addMod c.TS_W T d) ds

/-- The running timestamp after a run of `PULSE d`. -/
def lastPulseTime (c : Config) (T : Nat) : List Nat → Nat
  | [] => T
  | d :: ds => lastPulseTime c (addMod c.TS_W T d) ds

/-- A run of `PULSE d` as transactions, and the running timestamp after it. -/
def expandPulses (c : Config) (T : Nat) (ds : List Nat) : List PortWord × Nat :=
  ((pulseTimes c T ds).map .edge, lastPulseTime c T ds)

/-- A command word as a transaction; the running timestamp stays. -/
def expandCommand (w T : Nat) : List PortWord × Nat := ([.command (BitVec.ofNat 8 w)], T)

/-- R91: the transactions of a legal line, and the running timestamp after it. -/
def TraceLine.expand (c : Config) (T : Nat) : TraceLine → List PortWord × Nat
  | .edgeAt t => ([.edge t], t)
  | .reset => ([.reset], 0)
  | .nop a => expandCommand a T
  | .poll => expandCommand 0x10 T
  | .rdframe n => expandCommand (0x20 + n) T
  | .rdstat n => expandCommand (0x30 + n) T
  | .rawCmd w => expandCommand w T
  | .pulse d => expandPulses c T [d]
  | .pair h l => expandPulses c T [h, l]
  | .syncPair => expandPulses c T (syncPairDurations c)
  | .preamble => expandPulses c T (preambleDurations c)
  | .bit1 => expandPulses c T (bitDurations c true)
  | .bit0 => expandPulses c T (bitDurations c false)
  | .byte v => expandPulses c T (byteDurations c v)
  | .frame7 b0 b1 b2 b3 b4 b5 b6 =>
    expandPulses c T (frameDurations c [b0, b1, b2, b3, b4, b5, b6])
  | .frame6 b0 b1 b2 b3 b4 b5 =>
    expandPulses c T
      (frameDurations c [b0, b1, b2, b3, b4, b5, (b0 + b1 + b2 + b3 + b4 + b5) % 256])
  | .rdStatus => expandCommand 0x30 T
  | .rdEc => expandCommand 0x31 T
  | .rdAnchor => expandCommand 0x32 T
  | .rdIdx => expandCommand 0x33 T

/-- R90: the transactions of a trace in order; `none` when a line has a syntax error. -/
def expandTrace (c : Config) (T : Nat) : List TraceLine → Option (List PortWord)
  | [] => some []
  | l :: ls =>
    if l.legal c then
      (expandTrace c (l.expand c T).2 ls).map (fun ws => (l.expand c T).1 ++ ws)
    else none

/-- A trace presented to the core: each transaction stands alone, in order. -/
def State.presentTrace (ws : List PortWord) (s : State) : State :=
  { s with inputs := s.inputs ++ ws.map Presentation.ofWord }

/-- A hexadecimal digit, upper case. -/
def hexDigit (v : Nat) : Char := ("0123456789ABCDEF".toList).getD (v % 16) '0'

/-- The low `n` hexadecimal digits of a number, most significant first. -/
def hexDigits : (n v : Nat) → List Char
  | 0, _ => []
  | n + 1, v => hexDigits n (v / 16) ++ [hexDigit v]

/-- R92: the encoding of a transaction as text, a timestamp as 8 hexadecimal digits. R92 gives no text for a
timestamp of more than 32 bits (`TS_W > 32`): DESIGN CHOICE, its low 32 bits, so that two such timestamps
can share one text (assumption log 14). -/
def wordText : PortWord → List Char
  | .edge t => 'E' :: ':' :: hexDigits 8 t
  | .command w => 'C' :: ':' :: hexDigits 2 w.toNat
  | .reset => ['R']

/-- The tokens of a trace line. -/
inductive Token where
  | word (cs : List Char)
  | atSign
  | comma
  deriving DecidableEq, Repr

/-- A finished word, if any, in front of the later tokens. -/
def flushWord (cs : List Char) (rest : List Token) : List Token :=
  if cs = [] then rest else .word cs :: rest

/-- R90: the tokens of a line, `acc` being the word read so far; a comment runs from `;`. -/
def tokens (acc : List Char) : List Char → List Token
  | [] => flushWord acc []
  | ch :: rest =>
    if ch = ';' then flushWord acc []
    else if ch = ' ' ∨ ch = '\t' ∨ ch = '\r' then flushWord acc (tokens [] rest)
    else if ch = '@' then flushWord acc (.atSign :: tokens [] rest)
    else if ch = ',' then flushWord acc (.comma :: tokens [] rest)
    else tokens (acc ++ [ch]) rest

/-- The value of a digit in a base up to 16. -/
def digitValue (base : Nat) (ch : Char) : Option Nat :=
  let v :=
    if '0' ≤ ch ∧ ch ≤ '9' then some (ch.toNat - '0'.toNat)
    else if 'A' ≤ ch ∧ ch ≤ 'F' then some (ch.toNat - 'A'.toNat + 10)
    else if 'a' ≤ ch ∧ ch ≤ 'f' then some (ch.toNat - 'a'.toNat + 10)
    else none
  v.filter (fun d => decide (d < base))

/-- The number the digits spell, after `acc`. -/
def digitsValue (base acc : Nat) : List Char → Option Nat
  | [] => some acc
  | ch :: rest =>
    match digitValue base ch with
    | some d => digitsValue base (base * acc + d) rest
    | none => none

/-- R90: `number := decimal | "0x" hex`. -/
def numberOf : List Char → Option Nat
  | [] => none
  | '0' :: 'x' :: [] => none
  | '0' :: 'x' :: ch :: cs => digitsValue 16 0 (ch :: cs)
  | ch :: cs => digitsValue 10 0 (ch :: cs)

/-- Numbers separated by commas. -/
def numbersOf : List Token → Option (List Nat)
  | [] => some []
  | [.word cs] => (numberOf cs).map (fun v => [v])
  | .word cs :: .comma :: .word cs' :: rest =>
    match numberOf cs, numbersOf (.word cs' :: rest) with
    | some v, some vs => some (v :: vs)
    | _, _ => none
  | _ => none

/-- R90, R91: a mnemonic with its numbers as a line. -/
def lineOf (m : List Char) (args : List Nat) : Option TraceLine :=
  match args with
  | [] =>
    if m = "RESET".toList then some .reset
    else if m = "NOP".toList then some (.nop 0)
    else if m = "POLL".toList then some .poll
    else if m = "SYNCPAIR".toList then some .syncPair
    else if m = "PREAMBLE".toList then some .preamble
    else if m = "BIT1".toList then some .bit1
    else if m = "BIT0".toList then some .bit0
    else if m = "RDSTATUS".toList then some .rdStatus
    else if m = "RDEC".toList then some .rdEc
    else if m = "RDANCHOR".toList then some .rdAnchor
    else if m = "RDIDX".toList then some .rdIdx
    else none
  | [n] =>
    if m = "NOP".toList then some (.nop n)
    else if m = "RDFRAME".toList then some (.rdframe n)
    else if m = "RDSTAT".toList then some (.rdstat n)
    else if m = ".cmd".toList then some (.rawCmd n)
    else if m = "PULSE".toList then some (.pulse n)
    else if m = "BYTE".toList then some (.byte n)
    else none
  | [h, l] => if m = "PAIR".toList then some (.pair h l) else none
  | [b0, b1, b2, b3, b4, b5] =>
    if m = "FRAME6".toList then some (.frame6 b0 b1 b2 b3 b4 b5) else none
  | [b0, b1, b2, b3, b4, b5, b6] =>
    if m = "FRAME7".toList then some (.frame7 b0 b1 b2 b3 b4 b5 b6) else none
  | _ => none

/-- R90: the line that a line's tokens spell. -/
def parseTokens : List Token → Option TraceLine
  | [.word m, .atSign, .word cs] =>
    if m = "EDGE".toList then (numberOf cs).map .edgeAt else none
  | .word m :: rest => (numbersOf rest).bind (lineOf m)
  | _ => none

/-- The lines of a text, `acc` being the line read so far. -/
def textLines (acc : List Char) : List Char → List (List Char)
  | [] => [acc]
  | ch :: rest => if ch = '\n' then acc :: textLines [] rest else textLines (acc ++ [ch]) rest

/-- R90: the lines of a trace's text; a line with no token is no transaction. -/
def parseLines : List (List Char) → Option (List TraceLine)
  | [] => some []
  | l :: ls =>
    match tokens [] l with
    | [] => parseLines ls
    | t :: ts =>
      match parseTokens (t :: ts), parseLines ls with
      | some x, some xs => some (x :: xs)
      | _, _ => none

/-- The assembler: a trace's text as transactions, the running timestamp starting at 0. -/
def assemble (c : Config) (text : List Char) : Option (List PortWord) :=
  (parseLines (textLines [] text)).bind (expandTrace c 0)

end Sys2Proof.Machine
end

