-- ==== Sys2Proof/Safety.lean ====
section
/-! DEFINITION. What claims about the core are stated in: declarative readings of the spec's predicates, the
invariants of reachable states (10_state.md R37) and runs of transactions. -/

namespace Sys2Proof.Machine

/-- R13, read as a proposition in ℤ. -/
abbrev SampleIn (d ref tol : Nat) : Prop :=
  (ref : Int) - (tol : Int) ≤ (d : Int) ∧ (d : Int) ≤ (ref : Int) + (tol : Int)

/-- R102, R108: `d` is the duration from `prev` to `t`, the one natural below `2 ^ TS_W` that leads from
`prev` to `t` modulo `2 ^ TS_W`. -/
abbrev IsDuration (c : Config) (prev t d : Nat) : Prop :=
  d < 2 ^ c.TS_W ∧ (prev + d) % 2 ^ c.TS_W = t % 2 ^ c.TS_W

/-- R104: the valid envelope, both bounds inclusive. -/
abbrev ValidPulse (c : Config) (d : Nat) : Prop := c.PULSE_MIN ≤ d ∧ d ≤ c.PULSE_MAX

/-- R131: the four pairs of the window that ends at index `i`, older durations high (R132). -/
abbrev SyncWindow (c : Config) (rb : Memory) (i : Nat) : Prop :=
  ∀ k : Nat, k < N_SYNC_PAIRS →
    SampleIn (Memory.read rb (ringIndex c ((i : Int) - 7 + 2 * (k : Int)))) c.SYNC_HIGH c.SYNC_TOL
      ∧ SampleIn (Memory.read rb (ringIndex c ((i : Int) - 6 + 2 * (k : Int)))) c.SYNC_LOW c.SYNC_TOL

/-- R105, R107, R131: storing the duration `d` after the newest entry completes the sync pattern. -/
abbrev CompletesSync (s : State) (d : Nat) : Prop :=
  SyncWindow s.cfg (Memory.write s.RB ((s.IDX.toNat + 1) % s.cfg.RING_CAP) d)
    ((s.IDX.toNat + 1) % s.cfg.RING_CAP)

/-- R162: `Match1(h, l)`. -/
abbrev FitsBit1 (c : Config) (h l : Nat) : Prop :=
  SampleIn h c.BIT1_HIGH c.BIT_TOL ∧ SampleIn l c.BIT1_LOW c.BIT_TOL

/-- R162: `Match0(h, l)`. -/
abbrev FitsBit0 (c : Config) (h l : Nat) : Prop :=
  SampleIn h c.BIT0_HIGH c.BIT_TOL ∧ SampleIn l c.BIT0_LOW c.BIT_TOL

/-- No duration that passes as the low of a data bit passes as a sync sample, as under TC (R137). -/
def BitLowsOffSync (c : Config) : Prop :=
  ∀ d : Nat, SampleIn d c.BIT1_LOW c.BIT_TOL ∨ SampleIn d c.BIT0_LOW c.BIT_TOL →
    ¬ SampleIn d c.SYNC_HIGH c.SYNC_TOL ∧ ¬ SampleIn d c.SYNC_LOW c.SYNC_TOL

/-- R163: the pair `(h, l)` classifies as the bit `b`: it fits that bit's pattern and not the other's. -/
abbrev ClassifiesAs (c : Config) (h l : Nat) (b : Bool) : Prop :=
  if b then FitsBit1 c h l ∧ ¬ FitsBit0 c h l else FitsBit0 c h l ∧ ¬ FitsBit1 c h l

/-- R163: NONE, the pair fits neither pattern, or both. -/
abbrev ClassifiesNone (c : Config) (h l : Nat) : Prop := FitsBit1 c h l ↔ FitsBit0 c h l

/-- R161: the duration at position `k` after the anchor; pair `j` is positions `1 + 2j` and `2 + 2j`. -/
def dataDuration (s : State) (k : Nat) : Nat :=
  Memory.read s.RB (ringIndex s.cfg ((s.ANCHOR.toNat : Int) + (k : Int)))

/-- R161, R163: pair `j` of the pending frame classifies as `b`. -/
abbrev PairIs (s : State) (j : Nat) (b : Bool) : Prop :=
  ClassifiesAs s.cfg (dataDuration s (1 + 2 * j)) (dataDuration s (2 + 2 * j)) b

/-- R163, R164: pair `j` of the pending frame classifies NONE. -/
abbrev PairIsNone (s : State) (j : Nat) : Prop :=
  ClassifiesNone s.cfg (dataDuration s (1 + 2 * j)) (dataDuration s (2 + 2 * j))

/-- R165: `byte[n][7 - m] = bit[8n + m]` for `n = 0..6` and `m = 0..7`. -/
abbrev PacksTo (bit : Nat → Bool) (f : Vector Byte 7) : Prop :=
  ∀ (n : Nat) (h : n < 7) (m : Nat), m < 8 → f[n].getLsbD (7 - m) = bit (8 * n + m)

/-- R166: the sum of the first six bytes, not reduced. -/
def byteSum (f : Vector Byte 7) : Nat :=
  f[0].toNat + f[1].toNat + f[2].toNat + f[3].toNat + f[4].toNat + f[5].toNat

/-- R37: the invariants of every state reachable from reset, with the widths of R20 and the canonical
form of the ring memory. -/
structure CoreInv (s : State) : Prop where
  /-- R8. -/
  cfg_wf : s.cfg.wf = true
  /-- R23: `LET` has `TS_W` bits. -/
  LET_width : s.LET < 2 ^ s.cfg.TS_W
  /-- R27: `EC` has `EC_W` bits. -/
  EC_width : s.EC < 2 ^ s.cfg.EC_W
  /-- (I5). -/
  IDX_in_ring : s.IDX.toNat < s.cfg.RING_CAP
  /-- (I5). -/
  ANCHOR_in_ring : s.ANCHOR.toNat < s.cfg.RING_CAP
  /-- (I1). -/
  ready_synced : s.FR = true → s.SF = true
  /-- (I2). -/
  synced_count : s.SF = true → s.EC ≤ N_DATA_EDGES
  /-- (I3). -/
  ready_iff : s.FR = true ↔ s.SF = true ∧ s.EC = N_DATA_EDGES
  /-- (I4). -/
  searching_anchor : s.SF = false → s.ANCHOR = 0
  /-- (I6), its last clause. -/
  index_of_count : s.SF = true → s.IDX.toNat = (s.ANCHOR.toNat + s.EC) % s.cfg.RING_CAP
  /-- The ring memory keeps its canonical form. -/
  ring_wf : Memory.wf s.RB = true
  /-- R50: the ring has the indices `0 .. RING_CAP - 1`. -/
  ring_indices : ∀ i, s.cfg.RING_CAP ≤ i → Memory.read s.RB i = Memory.unlisted
  /-- (I7). -/
  ring_values : ∀ i, Memory.read s.RB i = 0 ∨ ValidPulse s.cfg (Memory.read s.RB i)

/-- R37, its last sentence: while synced, the window that ends at the anchor still holds the sync
pattern. -/
def SyncHeld (s : State) : Prop := s.SF = true → SyncWindow s.cfg s.RB s.ANCHOR.toNat

/-- R37 (I6): while synced, `ds` are the `EC` entries after the anchor, in arrival order. -/
def EntriesAre (s : State) (ds : List Nat) : Prop :=
  s.SF = true → ds.length = s.EC ∧ ∀ k, k < s.EC → ds[k]? = some (dataDuration s (k + 1))

/-- R31, R32, R191: before any success every frame byte reads 0; after one, `FRAME` holds a validated
frame, whose checksum agrees. -/
def FrameValidated (s : State) : Prop :=
  (s.FV = false → s.FRAME = Vector.replicate 7 0)
    ∧ (s.FV = true → byteSum s.FRAME % 256 = s.FRAME[6].toNat)

/-- R213, R216, U11: `LAST_ERR` is 0 or the code of an error that a reachable state raises. -/
def LegalLastErr (s : State) : Prop :=
  s.LAST_ERR = 0 ∨ s.LAST_ERR = 1 ∨ s.LAST_ERR = 3 ∨ s.LAST_ERR = 4 ∨ s.LAST_ERR = 6

/-- Perform transactions in order, stopping where one does not answer a next state. -/
def runInstrs : List Instr → State → Host.Outcome State Fault Refusal
  | [], s => .next s
  | i :: is, s =>
    match exec i s with
    | .next s' => runInstrs is s'
    | .fault r => .fault r
    | .refused r => .refused r

/-- A number of steps, stopping where one does not answer a next state. -/
def runSteps : Nat → State → Host.Outcome State Fault Refusal
  | 0, s => .next s
  | n + 1, s =>
    match step s with
    | .next s' => runSteps n s'
    | .fault r => .fault r
    | .refused r => .refused r

/-- R91: the edges of a run of `PULSE d` that starts from the core's last edge. -/
def pulses (s : State) (ds : List Nat) : List Instr := (pulseTimes s.cfg s.LET ds).map .edge

/-- R90, R91: the transactions of some lines in order, and the running timestamp after them. -/
def expandLines (c : Config) (T : Nat) : List TraceLine → List PortWord × Nat
  | [] => ([], T)
  | l :: ls =>
    ((l.expand c T).1 ++ (expandLines c (l.expand c T).2 ls).1, (expandLines c (l.expand c T).2 ls).2)

/-- A format-C transaction: a command, legal or not (R70). -/
def isCommand : Instr → Bool
  | .edge _ => false
  | .reset => false
  | .nop _ => true
  | .poll => true
  | .rdframe _ => true
  | .rdstat0 => true
  | .rdstat1 => true
  | .rdstat2 => true
  | .rdstat3 => true
  | .illegal _ => true

/-- A safe step: it answers a next state (R219). -/
def SafeStep (s : State) : Prop := ∃ s', step s = .next s'

end Sys2Proof.Machine
end

