-- ==== Sys2Proof/Certificates/Slice0/Obligations.lean ====
section
/-! DEFINITION. The statements about the core, from the spec's numbered rules. -/

open Sys2Proof Sys2Proof.Machine

/-! ### Encoding and the step -/

/-- R58, R70: with a well-formed instruction's word presented alone and first, a step takes it from the
port and is `exec` of the instruction. -/
def Obligations.StepRunsThePresentedInstruction : Prop :=
  ∀ (s : State) (i : Instr) (rest : List Presentation),
    s.cfg.wf = true → i.wf s.cfg = true → s.inputs = Presentation.ofWord (encode i) :: rest →
    step s = exec i { s with inputs := rest }

/-- R71, R72, R74, R77, R79: words written out from the encoding tables decode to what the tables say. That
the length of a table row selects the port, under TC, is the model's (assumption log 13). -/
def Obligations.WordsDecodeAsTabled : Prop :=
  decodeTableWord 32 0x000003E8 = some (.edge 1000)
    ∧ decodeTableWord 32 0xFFFFFFFF = some (.edge 4294967295)
    ∧ decodeTableWord 0 0 = some .reset
    ∧ decodeTableWord 8 0b00000000 = some (.nop 0) ∧ decodeTableWord 8 0b00000111 = some (.nop 7)
    ∧ decodeTableWord 8 0b00010000 = some .poll
    ∧ decodeTableWord 8 0b00100000 = some (.rdframe 0)
    ∧ decodeTableWord 8 0b00100110 = some (.rdframe 6)
    ∧ decodeTableWord 8 0b00110000 = some .rdstat0 ∧ decodeTableWord 8 0b00110001 = some .rdstat1
    ∧ decodeTableWord 8 0b00110010 = some .rdstat2 ∧ decodeTableWord 8 0b00110011 = some .rdstat3
    ∧ decodeTableWord 8 0b00001000 = some (.illegal 0x08)
    ∧ decodeTableWord 8 0b00010001 = some (.illegal 0x11)
    ∧ decodeTableWord 8 0b00100111 = some (.illegal 0x27)
    ∧ decodeTableWord 8 0b00110100 = some (.illegal 0x34)
    ∧ decodeTableWord 8 0b01000000 = some (.illegal 0x40)

/-- R74, R77: a command word decodes to an illegal command exactly when it is none of the 20 legal
words, and is then that word's. -/
def Obligations.IllegalWordsAreTheOthers : Prop :=
  ∀ w v : Byte, decodeCommand w = .illegal v ↔ v = w ∧
    ¬ (w.toNat ≤ 0x07 ∨ w.toNat = 0x10 ∨ (0x20 ≤ w.toNat ∧ w.toNat ≤ 0x26)
      ∨ (0x30 ≤ w.toNat ∧ w.toNat ≤ 0x33))

/-- Decoding the word of a well-formed instruction gives the instruction back, for every instruction,
every operand and every configuration. -/
def Obligations.DecodeOfEncode : Prop :=
  ∀ (c : Config) (i : Instr), i.wf c = true → decode c (encode i) = i

/-- R71, R74, R77: the decoder is total and loses nothing: every word of every port decodes to a
well-formed instruction whose encoding is that word. -/
def Obligations.EncodeOfDecode : Prop :=
  ∀ (c : Config) (x : PortWord), x.value < 2 ^ x.port.bits c →
    (decode c x).wf c = true ∧ encode (decode c x) = x

/-- R79: a bit string is a transaction of a port exactly when it has that port's length. -/
def Obligations.LengthFromThePortAlone : Prop :=
  ∀ (c : Config) (p : Port) (nbits w : Nat),
    (∃ i, decodeAt c p nbits w = .ok i ∧ (encode i).port = p ∧ (encode i).value = w)
      ↔ nbits = p.bits c ∧ w < 2 ^ nbits

/-- R226: an edge and a command that arrive together are applied one at a time, in one order or the
other, the second staying at its port for the next step. -/
def Obligations.TogetherInOneOrderOrTheOther : Prop :=
  ∀ (s : State) (t : Nat) (w : Byte) (r : Bool) (rest : List Presentation), s.cfg.wf = true →
    s.inputs = { edge := some t, command := some w, reset := r } :: rest →
    step s = exec (.edge (t % 2 ^ s.cfg.TS_W))
        { s with inputs := { command := some w, reset := r } :: rest, draws := s.draws + 1 }
      ∨ step s = exec (decodeCommand w)
        { s with inputs := { edge := some t, reset := r } :: rest, draws := s.draws + 1 }

/-- R226, R58: RESET presented together with another transaction is applied after it. That it stays
presented and a later step performs it is the model's (assumption logs 4 and 5). -/
def Obligations.ResetAfterTheOthers : Prop :=
  ∀ (s : State) (rest : List Presentation), s.cfg.wf = true →
    (∀ t, s.inputs = { edge := some t, reset := true } :: rest →
      step s = exec (.edge (t % 2 ^ s.cfg.TS_W)) { s with inputs := { reset := true } :: rest })
    ∧ (∀ w, s.inputs = { command := some w, reset := true } :: rest →
      step s = exec (decodeCommand w) { s with inputs := { reset := true } :: rest })
    ∧ (s.inputs = { reset := true } :: rest → step s = exec .reset { s with inputs := rest })

/-- R219: the core never halts: a step of a well-formed configuration answers a next state. -/
def Obligations.EveryStepAnswersNext : Prop := ∀ s : State, s.cfg.wf = true → SafeStep s

/-- R8: a configuration that fails a constraint is refused. -/
def Obligations.IllFormedConfigurationRefused : Prop :=
  ∀ s : State,
    ¬ (1 ≤ s.cfg.PULSE_MIN ∧ s.cfg.PULSE_MIN ≤ s.cfg.PULSE_MAX
        ∧ s.cfg.PULSE_MAX ≤ 2 ^ s.cfg.DUR_W - 1 ∧ 120 ≤ s.cfg.RING_CAP ∧ s.cfg.RING_CAP ≤ 256
        ∧ s.cfg.DUR_W ≤ s.cfg.TS_W ∧ N_DATA_EDGES < 2 ^ s.cfg.EC_W - 1) →
    step s = .refused .illFormedConfig

/-- R7, R62: no transaction changes the configuration. -/
def Obligations.ConfigurationNeverChanges : Prop :=
  ∀ s s' : State, step s = .next s' → s'.cfg = s.cfg

/-! ### Reset -/

/-- R240: RESET gives every element its reset value, with no response and no error event. -/
def Obligations.ResetGivesResetValues : Prop :=
  ∀ s : State, exec .reset s = .next
    { s with
      LET := 0, PR := false, RB := [], IDX := BitVec.ofNat 8 (s.cfg.RING_CAP - 1), EC := 0
      SF := false, ANCHOR := 0, FR := false, FRAME := Vector.replicate 7 0, FV := false
      LAST_ERR := 0, rsp := none, err := none }

/-- R20, R241: the state after power-on, under TC (the model's choice, assumption log 1). -/
def Obligations.PowerOnState : Prop :=
  State.reset.LET = 0 ∧ State.reset.PR = false ∧ (∀ i, Memory.read State.reset.RB i = 0)
    ∧ State.reset.IDX.toNat = State.reset.cfg.RING_CAP - 1 ∧ State.reset.EC = 0
    ∧ State.reset.SF = false ∧ State.reset.ANCHOR = 0 ∧ State.reset.FR = false
    ∧ (∀ n (h : n < 7), State.reset.FRAME[n] = 0) ∧ State.reset.FV = false
    ∧ State.reset.LAST_ERR = 0

/-! ### Commands that read -/

/-- R78, R190: NOP, hint or not, responds `0x000` and changes nothing. -/
def Obligations.NopChangesNothing : Prop :=
  ∀ (a : BitVec 3) (s : State), exec (.nop a) s = .next { s with rsp := some 0x000, err := none }

/-- R191, R85: `RDFRAME n` responds `0, FRAME[n]` and changes nothing; the term with `n = 7`, which no
word decodes to, acts as the illegal word 0x27 (assumption log 11). -/
def Obligations.RdframeAnswersTheByte : Prop :=
  ∀ (n : BitVec 3) (s : State),
    (∀ h : n.toNat < 7,
      exec (.rdframe n) s = .next { s with rsp := some (0#1 ++ s.FRAME[n.toNat]), err := none })
    ∧ (n.toNat = 7 → exec (.rdframe n) s = exec (.illegal 0x27) s)

/-- R34, R193: `RDSTAT 0` responds the STATUS byte and changes nothing: `SF`, `FR`, `FV`, `PR` in bits 0
to 3, `LAST_ERR` in bits 6:4, and bit 7 reads 0; after reset it reads `0x00`. -/
def Obligations.StatusLayout : Prop :=
  (∀ s : State, ∃ v : Byte,
    exec .rdstat0 s = .next { s with rsp := some (0#1 ++ v), err := none }
      ∧ v.getLsbD 0 = s.SF ∧ v.getLsbD 1 = s.FR ∧ v.getLsbD 2 = s.FV ∧ v.getLsbD 3 = s.PR
      ∧ v.extractLsb' 4 3 = s.LAST_ERR ∧ v.getLsbD 7 = false)
    ∧ statusView State.reset = 0x00

/-- R194: `RDSTAT 1` responds `EC` zero-extended and changes nothing. With `EC_W > 8` an `EC` that 8
bits cannot hold has no stated view: the command still completes, with some byte (assumption log 9). -/
def Obligations.RdstatOneAnswersTheCount : Prop :=
  ∀ s : State,
    (s.EC < 256 → exec .rdstat1 s = .next { s with rsp := some (BitVec.ofNat 9 s.EC), err := none })
    ∧ (256 ≤ s.EC → ∃ v : Byte,
        exec .rdstat1 s = .next { s with rsp := some (0#1 ++ v), err := none })

/-- R195, R196: `RDSTAT 2` and `RDSTAT 3` respond `ANCHOR` and `IDX` and change nothing. -/
def Obligations.RdstatAnswersAnchorAndIndex : Prop :=
  ∀ s : State,
    exec .rdstat2 s = .next { s with rsp := some (0#1 ++ s.ANCHOR), err := none }
      ∧ exec .rdstat3 s = .next { s with rsp := some (0#1 ++ s.IDX), err := none }

/-- R197, R217: an illegal word responds `0x100`, raises IllegalCommand with the word as `info`, sets
`LAST_ERR` to 6 and changes nothing else. -/
def Obligations.IllegalWordOnlySetsLastErr : Prop :=
  ∀ (w : Byte) (s : State), exec (.illegal w) s = .next
    { s with LAST_ERR := 6, rsp := some 0x100, err := some ⟨6, w.toNat⟩ }

/-- R39, R198: NOP, the reads and an illegal word respond the same in two states that differ only in
the hidden elements `LET` and `RB`. -/
def Obligations.ReadsDoNotSeeHiddenState : Prop :=
  ∀ (i : Instr) (s s' : State) (prev : Micros) (rb : Memory), isCommand i = true → i ≠ .poll →
    exec i s = .next s' → exec i { s with LET := prev, RB := rb } = .next { s' with LET := prev, RB := rb }

/-! ### POLL -/

/-- R169: POLL with `FR = 0` responds NOT_READY and changes nothing. -/
def Obligations.PollNotReady : Prop :=
  ∀ s : State, s.FR = false → exec .poll s = .next { s with rsp := some 0x000, err := none }

/-- R164: at the lowest pair that classifies NONE, POLL performs CaptureReset, raises BitDecodeError
with that pair's index and responds `0x083`, whatever the later pairs are. -/
def Obligations.PollAbortsAtTheFirstBadPair : Prop :=
  ∀ (s : State) (j : Nat), s.FR = true → j < N_BITS →
    (∀ k, k < j → ∃ b, PairIs s k b) → PairIsNone s j →
    exec .poll s = .next
      { s with
        EC := 0, SF := false, ANCHOR := 0, FR := false, LAST_ERR := 3
        rsp := some 0x083, err := some ⟨3, j⟩ }

/-- R165 to R167: when every pair classifies and the checksum of the packed bytes disagrees, POLL
performs CaptureReset, raises ChecksumError with `c` and `byte[6]` and responds `0x084`. -/
def Obligations.PollRejectsAWrongChecksum : Prop :=
  ∀ (s : State) (bit : Nat → Bool) (f : Vector Byte 7), s.FR = true →
    (∀ j, j < N_BITS → PairIs s j (bit j)) → PacksTo bit f → byteSum f % 256 ≠ f[6].toNat →
    exec .poll s = .next
      { s with
        EC := 0, SF := false, ANCHOR := 0, FR := false, LAST_ERR := 4
        rsp := some 0x084, err := some ⟨4, 256 * (byteSum f % 256) + f[6].toNat⟩ }

/-- R165, R166, R168: when every pair classifies and the checksum of the packed bytes agrees, POLL
writes them to `FRAME`, sets `FV`, performs CaptureReset and responds `0x001`. -/
def Obligations.PollValidatesTheFrame : Prop :=
  ∀ (s : State) (bit : Nat → Bool) (f : Vector Byte 7), s.FR = true →
    (∀ j, j < N_BITS → PairIs s j (bit j)) → PacksTo bit f → byteSum f % 256 = f[6].toNat →
    exec .poll s = .next
      { s with
        EC := 0, SF := false, ANCHOR := 0, FR := false, FRAME := f, FV := true
        rsp := some 0x001, err := none }

/-- R86, R170: POLL always completes with one of its four result codes; one that finds `FR = 1`
re-arms whatever its outcome, and none writes `LET`, `PR`, `IDX` or `RB`. -/
def Obligations.PollAlwaysRearms : Prop :=
  ∀ s : State, ∃ t : State, exec .poll s = .next t
    ∧ (t.rsp = some 0x000 ∨ t.rsp = some 0x001 ∨ t.rsp = some 0x083 ∨ t.rsp = some 0x084)
    ∧ (t.rsp = some 0x000 ↔ s.FR = false)
    ∧ (s.FR = true → t.FR = false ∧ t.SF = false ∧ t.EC = 0 ∧ t.ANCHOR = 0)
    ∧ t.LET = s.LET ∧ t.PR = s.PR ∧ t.IDX = s.IDX ∧ t.RB = s.RB

/-- R163: classification is total: one bit exactly when one pattern matches, NONE exactly when neither
or both do. -/
def Obligations.ClassificationByPatterns : Prop :=
  ∀ (c : Config) (h l : Nat),
    (classify c h l = some true ↔ FitsBit1 c h l ∧ ¬ FitsBit0 c h l)
      ∧ (classify c h l = some false ↔ FitsBit0 c h l ∧ ¬ FitsBit1 c h l)
      ∧ (classify c h l = none ↔ (¬ FitsBit1 c h l ∧ ¬ FitsBit0 c h l) ∨ (FitsBit1 c h l ∧ FitsBit0 c h l))

/-- R13, R136: a sample exactly at `ref ± tol` passes and one at `ref ± (tol + 1)` fails, also when
`tol` exceeds `ref`. -/
def Obligations.ToleranceBoundary : Prop :=
  ∀ (d ref tol : Nat),
    (d = ref + tol → within d ref tol = true) ∧ (d + tol = ref → within d ref tol = true)
      ∧ (d = ref + (tol + 1) → within d ref tol = false)
      ∧ (d + (tol + 1) = ref → within d ref tol = false)
      ∧ (within d ref tol = true ↔ (ref : Int) - tol ≤ d ∧ (d : Int) ≤ ref + tol)

/-- R166, R174: the checksum test passes exactly when the sum of the first six bytes modulo 256 is the
seventh, and flipping any one bit of any one of the first six bytes of a frame that passes makes it
fail. -/
def Obligations.ChecksumCatchesSingleBitFlips : Prop :=
  ∀ f : Vector Byte 7,
    (checksum f = f[6] ↔
      (f[0].toNat + f[1].toNat + f[2].toNat + f[3].toNat + f[4].toNat + f[5].toNat) % 256 = f[6].toNat)
    ∧ (∀ (n : Nat) (h : n < 6) (k : Nat), k < 8 → checksum f = f[6] →
        checksum (f.set n (f[n] ^^^ BitVec.twoPow 8 k)) ≠ f[6])

/-! ### EDGE -/

/-- R101: with `PR = 0` an edge only records its timestamp and sets `PR`. -/
def Obligations.EdgePrimes : Prop :=
  ∀ (s : State) (t : Nat), s.PR = false →
    exec (.edge t) s = .next
      { s with LET := t % 2 ^ s.cfg.TS_W, PR := true, rsp := none, err := none }

/-- R63, R103: while `FR = 1` an edge changes `LET` only (`PR` is 1 after it, as before it in every
reachable state), and raises no error, whatever its timestamp. -/
def Obligations.EdgeDroppedWhileReady : Prop :=
  ∀ (s : State) (t : Nat), s.FR = true →
    exec (.edge t) s = .next
      { s with LET := t % 2 ^ s.cfg.TS_W, PR := true, rsp := none, err := none }

/-- R104, R212: a duration outside the envelope performs CaptureReset and raises PulseTimingError with
the duration; `IDX` and `RB` are unchanged. -/
def Obligations.EdgeNoiseResetsCapture : Prop :=
  ∀ (s : State) (t d : Nat), s.PR = true → s.FR = false → IsDuration s.cfg s.LET t d →
    ¬ ValidPulse s.cfg d →
    exec (.edge t) s = .next
      { s with
        LET := t % 2 ^ s.cfg.TS_W, EC := 0, SF := false, ANCHOR := 0, FR := false, LAST_ERR := 1
        rsp := none, err := some ⟨1, d⟩ }

/-- R105, R106, R110 (append): in SEARCHING a valid duration without a match is stored at the next index
and counted, modulo `2 ^ EC_W`. -/
def Obligations.EdgeAppendsWhileSearching : Prop :=
  ∀ (s : State) (t d : Nat), s.cfg.wf = true → s.PR = true → s.FR = false →
    IsDuration s.cfg s.LET t d → ValidPulse s.cfg d → s.SF = false →
    ¬ SyncWindow s.cfg (Memory.write s.RB ((s.IDX.toNat + 1) % s.cfg.RING_CAP) d)
        ((s.IDX.toNat + 1) % s.cfg.RING_CAP) →
    exec (.edge t) s = .next
      { s with
        LET := t % 2 ^ s.cfg.TS_W, IDX := BitVec.ofNat 8 ((s.IDX.toNat + 1) % s.cfg.RING_CAP)
        RB := Memory.write s.RB ((s.IDX.toNat + 1) % s.cfg.RING_CAP) d
        EC := (s.EC + 1) % 2 ^ s.cfg.EC_W, rsp := none, err := none }

/-- R131, R134, R110 (sync): a valid duration that completes the sync pattern anchors at its index, or
re-anchors, and zeroes the count; no error is raised. -/
def Obligations.EdgeAnchorsOnSync : Prop :=
  ∀ (s : State) (t d : Nat), s.cfg.wf = true → s.PR = true → s.FR = false →
    IsDuration s.cfg s.LET t d → ValidPulse s.cfg d →
    SyncWindow s.cfg (Memory.write s.RB ((s.IDX.toNat + 1) % s.cfg.RING_CAP) d)
        ((s.IDX.toNat + 1) % s.cfg.RING_CAP) →
    exec (.edge t) s = .next
      { s with
        LET := t % 2 ^ s.cfg.TS_W, IDX := BitVec.ofNat 8 ((s.IDX.toNat + 1) % s.cfg.RING_CAP)
        RB := Memory.write s.RB ((s.IDX.toNat + 1) % s.cfg.RING_CAP) d
        EC := 0, SF := true, ANCHOR := BitVec.ofNat 8 ((s.IDX.toNat + 1) % s.cfg.RING_CAP)
        rsp := none, err := none }

/-- R151 to R153, R110 (data, ready): in DATA a valid duration without a match is stored and counted;
the count 112 sets `FR`, a smaller one does nothing more, and a larger one (no reachable state) resets
the capture and raises FrameOverrun, whose `info` is the `EC` after that reset (R11; assumption log 8). -/
def Obligations.EdgeCountsDataEdges : Prop :=
  ∀ (s : State) (t d : Nat), s.cfg.wf = true → s.PR = true → s.FR = false →
    IsDuration s.cfg s.LET t d → ValidPulse s.cfg d → s.SF = true →
    ¬ SyncWindow s.cfg (Memory.write s.RB ((s.IDX.toNat + 1) % s.cfg.RING_CAP) d)
        ((s.IDX.toNat + 1) % s.cfg.RING_CAP) →
    exec (.edge t) s = .next
      (let stored : State :=
        { s with
          LET := t % 2 ^ s.cfg.TS_W, IDX := BitVec.ofNat 8 ((s.IDX.toNat + 1) % s.cfg.RING_CAP)
          RB := Memory.write s.RB ((s.IDX.toNat + 1) % s.cfg.RING_CAP) d
          EC := (s.EC + 1) % 2 ^ s.cfg.EC_W, rsp := none, err := none }
      if (s.EC + 1) % 2 ^ s.cfg.EC_W < 112 then stored
      else if (s.EC + 1) % 2 ^ s.cfg.EC_W = 112 then { stored with FR := true }
      else
        { stored with
          EC := 0, SF := false, ANCHOR := 0, FR := false, LAST_ERR := 2
          err := some ⟨2, 0⟩ })

/-- R105, R110: what EDGE leaves alone. It never writes `FRAME`, `FV`, the configuration, the ports or
the draw counter and gives no response; `LAST_ERR` changes only with an error event; every ring entry
but the one at the index an append writes reads as before; and a priming, dropped or noise edge stores
nothing and leaves `IDX`. -/
def Obligations.EdgeFrame : Prop :=
  ∀ (s s' : State) (t : Nat), Memory.wf s.RB = true → exec (.edge t) s = .next s' →
    s'.FRAME = s.FRAME ∧ s'.FV = s.FV ∧ s'.cfg = s.cfg ∧ s'.inputs = s.inputs ∧ s'.draws = s.draws
      ∧ s'.rsp = none ∧ (s'.err = none → s'.LAST_ERR = s.LAST_ERR)
      ∧ (∀ i, i ≠ appendIndex s → Memory.read s'.RB i = Memory.read s.RB i)
      ∧ ((s.PR = false ∨ s.FR = true ∨ ∃ d, s'.err = some ⟨1, d⟩) → s'.RB = s.RB ∧ s'.IDX = s.IDX)

/-- R51, R55: a ring entry reads back as written, every other entry as before, and a write keeps the
canonical form. -/
def Obligations.RingReadAfterWrite : Prop :=
  ∀ (m : Memory) (i j v : Nat), Memory.wf m = true →
    Memory.wf (Memory.write m i v) = true
      ∧ Memory.read (Memory.write m i v) j = if i = j then v else Memory.read m j

/-- R60, R63: with no POLL the core stays in READY: any run of edges changes `LET` only (`PR` is 1 after it,
as before it in every reachable state), and its last step has no response and no error event. -/
def Obligations.ReadyWaitsForPoll : Prop :=
  ∀ (s : State) (ts : List Nat) (t : Nat), s.FR = true →
    runInstrs ((ts ++ [t]).map .edge) s = .next
      { s with LET := t % 2 ^ s.cfg.TS_W, PR := true, rsp := none, err := none }

/-- R252: the first edge after a POLL is measured from the last dropped edge, and the ring still holds the
frame's durations. Where the newest of them lies in neither sync window, no sync matches before 8 new
durations are appended; where it may, the window is R131's last 8 entries (assumption log 18). -/
def Obligations.ResumptionAfterPoll : Prop :=
  ∀ (s : State) (t : Nat), CoreInv s → s.FR = true →
    ∃ u, runInstrs [.edge t, .poll] s = .next u ∧ u.LET = t % 2 ^ s.cfg.TS_W ∧ u.PR = true
      ∧ u.RB = s.RB ∧ u.IDX = s.IDX ∧ phase u = .searching
      ∧ ∀ ds : List Nat,
        ¬ SampleIn (Memory.read s.RB s.IDX.toNat) s.cfg.SYNC_HIGH s.cfg.SYNC_TOL →
        ¬ SampleIn (Memory.read s.RB s.IDX.toNat) s.cfg.SYNC_LOW s.cfg.SYNC_TOL →
        ds.length < 8 → (∀ d ∈ ds, ValidPulse s.cfg d) →
        ∃ v, runInstrs (pulses u ds) u = .next v ∧ phase v = .searching

/-- R252: after a POLL that decoded every pair, where no data bit's low passes as a sync sample, a new sync
matches only when 8 newly appended durations form the pattern: fewer leave the core searching. -/
def Obligations.ResyncAfterADecodedFrame : Prop :=
  ∀ (s : State) (t : Nat), CoreInv s → s.FR = true → BitLowsOffSync s.cfg →
    ∃ u, runInstrs [.edge t, .poll] s = .next u
      ∧ (u.rsp = some 0x001 ∨ u.rsp = some 0x084 →
        ∀ ds : List Nat, ds.length < 8 → (∀ d ∈ ds, ValidPulse s.cfg d) →
          ∃ v, runInstrs (pulses u ds) u = .next v ∧ phase v = .searching)

/-! ### Rules of the whole machine -/

/-- R36: each element is written by its own domain. Only EDGE and RESET write `LET`, `PR`, `RB`, `IDX`;
only POLL and RESET write `FRAME`, `FV`; EDGE writes `EC`, `SF`, `ANCHOR`, `FR` only while `FR = 0`, and
a command only if it is POLL and only while `FR = 1`. -/
def Obligations.ElementsHaveOneOwner : Prop :=
  ∀ (i : Instr) (s s' : State), exec i s = .next s' →
    ((∀ t, i ≠ .edge t) → i ≠ .reset →
      s'.LET = s.LET ∧ s'.PR = s.PR ∧ s'.RB = s.RB ∧ s'.IDX = s.IDX)
    ∧ (i ≠ .poll → i ≠ .reset → s'.FRAME = s.FRAME ∧ s'.FV = s.FV)
    ∧ ((∃ t, i = .edge t) → s.FR = true →
      s'.EC = s.EC ∧ s'.SF = s.SF ∧ s'.ANCHOR = s.ANCHOR ∧ s'.FR = s.FR)
    ∧ (isCommand i = true → (i ≠ .poll ∨ s.FR = false) →
      s'.EC = s.EC ∧ s'.SF = s.SF ∧ s'.ANCHOR = s.ANCHOR ∧ s'.FR = s.FR)

/-- R36: no rule reads `LAST_ERR`; only the response of `RDSTAT 0` shows it. -/
def Obligations.LastErrOnlyObserved : Prop :=
  ∀ (i : Instr) (s s' : State) (e : ErrorCode), i ≠ .rdstat0 → exec i s = .next s' →
    ∃ e', exec i { s with LAST_ERR := e } = .next { s' with LAST_ERR := e' }
      ∧ (e' = e ∨ e' = s'.LAST_ERR)

/-- R85: every command step, and no other, produces exactly one response; `ILL` is 1 only for an
illegal word, and the response is then `0x100`. -/
def Obligations.ResponsesOfCommandsOnly : Prop :=
  ∀ (i : Instr) (s : State), i.wf s.cfg = true → ∃ s', exec i s = .next s'
    ∧ (s'.rsp = none ↔ isCommand i = false)
    ∧ (∀ w, i = .illegal w → s'.rsp = some 0x100)
    ∧ ((∀ w, i ≠ .illegal w) → ∀ v, s'.rsp = some v → v.getLsbD 8 = false)

/-- R33, R211: the step that emits an error event sets `LAST_ERR` to its code; a step that emits none
leaves `LAST_ERR`, but for RESET. -/
def Obligations.ErrorEventSetsLastErr : Prop :=
  ∀ (i : Instr) (s s' : State), exec i s = .next s' →
    (∀ e, s'.err = some e → s'.LAST_ERR = e.code)
    ∧ (s'.err = none → i ≠ .reset → s'.LAST_ERR = s.LAST_ERR)

/-- R172, R250: `FRAME` changes only on a POLL that responds OK, or on RESET. -/
def Obligations.FrameChangesOnlyOnPollOk : Prop :=
  ∀ (i : Instr) (s s' : State), exec i s = .next s' → s'.FRAME ≠ s.FRAME →
    i = .reset ∨ (i = .poll ∧ s.FR = true ∧ s'.rsp = some 0x001 ∧ s'.FV = true)

/-- R24, R32: no transaction but RESET clears `PR` or `FV`. -/
def Obligations.OnlyResetClearsPrimedAndValid : Prop :=
  ∀ (i : Instr) (s s' : State), exec i s = .next s' → i ≠ .reset →
    (s.PR = true → s'.PR = true) ∧ (s.FV = true → s'.FV = true)

/-- R154: the phase transitions, complete, each row with its event, from every state that meets the
invariants. -/
def Obligations.PhaseTransitionTable : Prop :=
  ∀ (i : Instr) (s s' : State), CoreInv s → i.wf s.cfg = true → exec i s = .next s' →
    phase s' ≠ .noPhase
    ∧ (i = .reset → phase s' = .searching)
    ∧ (i = .poll → phase s = .ready → phase s' = .searching)
    ∧ (i = .poll → phase s ≠ .ready → phase s' = phase s)
    ∧ (isCommand i = true → i ≠ .poll → phase s' = phase s)
    ∧ ∀ t, i = .edge t →
      (phase s = .ready → phase s' = .ready)
      ∧ (s.PR = false → phase s' = phase s)
      ∧ ∀ d, IsDuration s.cfg s.LET t d → s.PR = true → phase s ≠ .ready →
        (¬ ValidPulse s.cfg d → phase s' = .searching ∧ s'.EC = 0)
        ∧ (ValidPulse s.cfg d → CompletesSync s d →
          phase s' = .data ∧ s'.EC = 0 ∧ s'.ANCHOR = s'.IDX)
        ∧ (ValidPulse s.cfg d → ¬ CompletesSync s d →
          (phase s = .searching → phase s' = .searching)
          ∧ (phase s = .data → s'.EC = s.EC + 1 ∧ s'.EC ≤ 112 ∧ s'.ANCHOR = s.ANCHOR
            ∧ (s'.EC < 112 → phase s' = .data) ∧ (s'.EC = 112 → phase s' = .ready)))

/-! ### Invariants that every step keeps -/

/-- R37: the invariants hold after reset, under every well-formed configuration. -/
def Obligations.ResetMeetsInvariants : Prop :=
  ∀ c : Config, c.wf = true →
    CoreInv (State.resetWith c) ∧ SyncHeld (State.resetWith c) ∧ FrameValidated (State.resetWith c)
      ∧ LegalLastErr (State.resetWith c)

/-- R37: every step keeps the invariants (I1) to (I7), the widths of the registers and the canonical form
of the ring memory. -/
def Obligations.StepKeepsInv : Prop :=
  ∀ s s' : State, CoreInv s → step s = .next s' → CoreInv s'

/-- R37: while synced, the ring keeps the sync pattern that anchored the capture. -/
def Obligations.StepKeepsSyncPattern : Prop :=
  ∀ s s' : State, CoreInv s → SyncHeld s → step s = .next s' → SyncHeld s'

/-- R37 (I6): every step keeps the list of the entries since the anchoring match, in arrival order. Commands
and edges that store nothing leave it, a match and RESET empty it, and any other edge that stores appends
its own duration. -/
def Obligations.StepCarriesTheEntries : Prop :=
  ∀ (s s' : State) (ds : List Nat), CoreInv s → EntriesAre s ds → step s = .next s' →
    (s'.RB = s.RB ∧ s'.IDX = s.IDX ∧ EntriesAre s' ds)
    ∨ (s'.EC = 0 ∧ (s'.SF = true → s'.ANCHOR = s'.IDX) ∧ EntriesAre s' [])
    ∨ ∃ d, IsDuration s.cfg s.LET s'.LET d ∧ ValidPulse s.cfg d ∧ s'.SF = s.SF
      ∧ s'.IDX.toNat = (s.IDX.toNat + 1) % s.cfg.RING_CAP ∧ Memory.read s'.RB s'.IDX.toNat = d
      ∧ EntriesAre s' (ds ++ [d])

/-- R31, R32, R168: `FRAME` is all zero until a success and a validated frame ever after. -/
def Obligations.StepKeepsFrameValidated : Prop :=
  ∀ s s' : State, FrameValidated s → step s = .next s' → FrameValidated s'

/-- R153, R213, R216: no state that meets the invariants raises FrameOverrun, and `LAST_ERR` stays 0 or
one of the codes 1, 3, 4, 6. -/
def Obligations.FrameOverrunNeverRaised : Prop :=
  ∀ s s' : State, CoreInv s → LegalLastErr s → step s = .next s' →
    (∀ e, s'.err = some e → e.code ≠ 2) ∧ LegalLastErr s'

/-! ### Runs and the pipeline -/

/-- R58, R90: a trace presented at the ports is performed in order, one transaction a step. -/
def Obligations.PresentedTraceRunsInOrder : Prop :=
  ∀ (s : State) (ws : List PortWord), s.cfg.wf = true → s.inputs = [] →
    ∃ t, runInstrs (ws.map (decode s.cfg)) s = .next t
      ∧ runSteps ws.length (State.presentTrace ws s) = .next t

/-- R90 to R92: examples of trace lines, of their encoding as text and of syntax errors. -/
def Obligations.TraceEncodingExamples : Prop :=
  wordText (.edge 1000) = "E:000003E8".toList ∧ wordText (.command 0x10) = "C:10".toList
    ∧ wordText .reset = "R".toList
    ∧ assemble Config.TC "EDGE @1000 ; prime\nPOLL\nRESET".toList
      = some [.edge 1000, .command 0x10, .reset]
    ∧ assemble Config.TC "RDFRAME 7".toList = none
    ∧ assemble Config.TC ".cmd 0x27".toList = some [.command 0x27]
    ∧ assemble Config.TC "EDGE @0xFFFFFFFF\nPULSE 600".toList = some [.edge 4294967295, .edge 599]
    ∧ (∀ T b0 b1 b2 b3 b4 b5 b6,
      ((TraceLine.frame7 b0 b1 b2 b3 b4 b5 b6).expand Config.TC T).1.length = 112)

/-- R91: every line of the table of pseudo-instructions expands as the table says, for every operand, and
every line leaves the running timestamp it says: RESET sets it to 0, a command leaves it. -/
def Obligations.PseudoInstructionsExpand : Prop :=
  ∀ (c : Config) (T : Nat),
    (∀ t, (TraceLine.edgeAt t).expand c T = ([.edge t], t))
    ∧ TraceLine.reset.expand c T = ([.reset], 0)
    ∧ (∀ d, (TraceLine.pulse d).expand c T = ([.edge ((T + d) % 2 ^ c.TS_W)], (T + d) % 2 ^ c.TS_W))
    ∧ (∀ h l, (TraceLine.pair h l).expand c T = expandLines c T [.pulse h, .pulse l])
    ∧ TraceLine.syncPair.expand c T = expandLines c T [.pair c.SYNC_HIGH c.SYNC_LOW]
    ∧ TraceLine.preamble.expand c T = expandLines c T [.syncPair, .syncPair, .syncPair, .syncPair]
    ∧ TraceLine.bit1.expand c T = expandLines c T [.pair c.BIT1_HIGH c.BIT1_LOW]
    ∧ TraceLine.bit0.expand c T = expandLines c T [.pair c.BIT0_HIGH c.BIT0_LOW]
    ∧ (∀ v, (TraceLine.byte v).expand c T = expandLines c T
      ([7, 6, 5, 4, 3, 2, 1, 0].map (fun k => if v.testBit k then .bit1 else .bit0)))
    ∧ (∀ b0 b1 b2 b3 b4 b5 b6, (TraceLine.frame7 b0 b1 b2 b3 b4 b5 b6).expand c T
      = expandLines c T [.byte b0, .byte b1, .byte b2, .byte b3, .byte b4, .byte b5, .byte b6])
    ∧ (∀ b0 b1 b2 b3 b4 b5, (TraceLine.frame6 b0 b1 b2 b3 b4 b5).expand c T
      = (TraceLine.frame7 b0 b1 b2 b3 b4 b5 ((b0 + b1 + b2 + b3 + b4 + b5) % 256)).expand c T)
    ∧ TraceLine.rdStatus.expand c T = (TraceLine.rdstat 0).expand c T
    ∧ TraceLine.rdEc.expand c T = (TraceLine.rdstat 1).expand c T
    ∧ TraceLine.rdAnchor.expand c T = (TraceLine.rdstat 2).expand c T
    ∧ TraceLine.rdIdx.expand c T = (TraceLine.rdstat 3).expand c T
    ∧ (∀ w, (TraceLine.rawCmd w).expand c T = ([.command (BitVec.ofNat 8 w)], T))
    ∧ (∀ a, a ≤ 7 → (TraceLine.nop a).expand c T = ([encode (.nop (BitVec.ofNat 3 a))], T))
    ∧ TraceLine.poll.expand c T = ([encode .poll], T)
    ∧ (∀ n, n ≤ 6 → (TraceLine.rdframe n).expand c T = ([encode (.rdframe (BitVec.ofNat 3 n))], T))
    ∧ [0, 1, 2, 3].map (fun n => (TraceLine.rdstat n).expand c T)
      = [.rdstat0, .rdstat1, .rdstat2, .rdstat3].map (fun i => ([encode i], T))

/-- R133 (b), R242: where a zero entry lies in no sync-high window, no sync matches within the first 8
edges after reset, whatever their timestamps. -/
def Obligations.NoSyncBeforeTheNinthEdge : Prop :=
  ∀ (c : Config) (ts : List Nat), c.wf = true → c.SYNC_TOL < c.SYNC_HIGH → ts.length ≤ 8 →
    ∃ t, runInstrs (ts.map .edge) (State.resetWith c) = .next t ∧ t.SF = false ∧ t.FR = false

/-- R37 (I6): from a sync match on, after any valid durations that do not exceed a frame, the core is
still synced, the count is at most theirs, and the `EC` entries after the anchor are the durations
appended since the anchoring match, in arrival order. -/
def Obligations.EntriesSinceTheAnchor : Prop :=
  ∀ (s : State) (ds : List Nat), CoreInv s → s.PR = true → s.SF = true → s.EC = 0 →
    ds.length ≤ N_DATA_EDGES → (∀ d ∈ ds, ValidPulse s.cfg d) →
    ∃ t, runInstrs (pulses s ds) s = .next t ∧ t.SF = true ∧ t.EC ≤ ds.length
      ∧ (∀ k, k < t.EC → ds[ds.length - t.EC + k]? = some (dataDuration t (k + 1)))

/-- R131, R151, R161 to R168, and the source's testable property S7: from a searching core, four sync
pairs within tolerance and then 112 data durations that classify as the bits of seven bytes with a
correct checksum, none of which lies in the sync-low window, make the core ready with exactly that
frame pending, and POLL then responds OK with those bytes in `FRAME`. -/
def Obligations.PipelineDecodesAFrame : Prop :=
  ∀ (s : State) (sync data : List Nat) (f : Vector Byte 7), CoreInv s → s.PR = true → s.SF = false →
    sync.length = 8 → (∀ d ∈ sync, ValidPulse s.cfg d) →
    (∀ k, k < 4 → SampleIn (sync.getD (2 * k) 0) s.cfg.SYNC_HIGH s.cfg.SYNC_TOL
      ∧ SampleIn (sync.getD (2 * k + 1) 0) s.cfg.SYNC_LOW s.cfg.SYNC_TOL) →
    data.length = N_DATA_EDGES → (∀ d ∈ data, ValidPulse s.cfg d) →
    (∀ d ∈ data, ¬ SampleIn d s.cfg.SYNC_LOW s.cfg.SYNC_TOL) →
    (∀ (n : Nat) (h : n < 7) (m : Nat), m < 8 →
      ClassifiesAs s.cfg (data.getD (2 * (8 * n + m)) 0) (data.getD (2 * (8 * n + m) + 1) 0)
        (f[n].getLsbD (7 - m))) →
    byteSum f % 256 = f[6].toNat →
    ∃ ready t, runInstrs (pulses s (sync ++ data)) s = .next ready ∧ rdy ready = true
      ∧ exec .poll ready = .next t ∧ t.rsp = some 0x001 ∧ t.err = none ∧ t.FRAME = f ∧ t.FV = true
      ∧ phase t = .searching
end

