-- ==== Sys2Proof/Laws/Ring.lean ====
section
/-! SUPPORT. The laws of the ring-buffer memory, of ring indices and of modular arithmetic. -/

namespace Sys2Proof.Machine

/-! ### Reading and writing one entry -/

@[simp] theorem Memory.read_nil (i : Nat) : Memory.read [] i = Memory.unlisted := rfl

theorem Memory.read_cons (c : Cell) (m : Memory) (i : Nat) :
    Memory.read (c :: m) i = if c.1 = i then c.2 else Memory.read m i := rfl

/-- An index below every listed one is unlisted. -/
theorem Memory.read_of_lt_all {m : Memory} {i : Nat} (h : ∀ c ∈ m, i < c.1) :
    Memory.read m i = Memory.unlisted := by
  induction m with
  | nil => rfl
  | cons c m ih =>
    have hc : i < c.1 := h c (by simp)
    have hm : Memory.read m i = Memory.unlisted := ih fun d hd => h d (by simp [hd])
    rw [Memory.read_cons, if_neg (by omega), hm]

theorem Memory.wf_iff (m : Memory) :
    Memory.wf m = true ↔ m.Pairwise (fun a b => a.1 < b.1) ∧ ∀ c ∈ m, c.2 ≠ Memory.unlisted := by
  simp [Memory.wf]

@[simp] theorem Memory.wf_nil : Memory.wf [] = true := rfl

theorem Memory.wf_cons {c : Cell} {m : Memory} (h : Memory.wf (c :: m) = true) :
    (∀ d ∈ m, c.1 < d.1) ∧ c.2 ≠ Memory.unlisted ∧ Memory.wf m = true := by
  rw [Memory.wf_iff] at h ⊢
  obtain ⟨hp, hv⟩ := h
  rw [List.pairwise_cons] at hp
  exact ⟨hp.1, hv c (by simp), hp.2, fun d hd => hv d (by simp [hd])⟩

theorem Memory.wf_cons_of {c : Cell} {m : Memory} (h1 : ∀ d ∈ m, c.1 < d.1)
    (h2 : c.2 ≠ Memory.unlisted) (h3 : Memory.wf m = true) : Memory.wf (c :: m) = true := by
  rw [Memory.wf_iff] at h3 ⊢
  exact ⟨List.pairwise_cons.2 ⟨h1, h3.1⟩, by
    intro d hd
    rcases List.mem_cons.1 hd with rfl | hd
    · exact h2
    · exact h3.2 d hd⟩

/-- `Memory.cons` in front of larger indices reads back and leaves the rest alone. -/
theorem Memory.read_cons_op {m : Memory} {i : Nat} (v j : Nat) (h : ∀ c ∈ m, i < c.1) :
    Memory.read (Memory.cons i v m) j = if i = j then v else Memory.read m j := by
  unfold Memory.cons
  split
  · rename_i hv
    split
    · rename_i hij
      subst hij
      rw [Memory.read_of_lt_all h, hv]
    · rfl
  · exact Memory.read_cons (i, v) m j

theorem Memory.mem_cons_op {m : Memory} {i v : Nat} {c : Cell} (h : c ∈ Memory.cons i v m) :
    c = (i, v) ∨ c ∈ m := by
  unfold Memory.cons at h
  split at h
  · exact .inr h
  · simpa using h

theorem Memory.wf_cons_op {m : Memory} {i v : Nat} (h : ∀ c ∈ m, i < c.1)
    (hm : Memory.wf m = true) : Memory.wf (Memory.cons i v m) = true := by
  unfold Memory.cons
  split
  · exact hm
  · rename_i hv
    exact Memory.wf_cons_of h hv hm

theorem Memory.mem_write {m : Memory} {i v : Nat} {c : Cell} (h : c ∈ Memory.write m i v) :
    c = (i, v) ∨ c ∈ m := by
  induction m with
  | nil => exact Memory.mem_cons_op h
  | cons d m ih =>
    obtain ⟨j, u⟩ := d
    rw [Memory.write] at h
    split at h
    · exact Memory.mem_cons_op h
    · split at h
      · rcases Memory.mem_cons_op h with h | h
        · exact .inl h
        · exact .inr (by simp [h])
      · rcases List.mem_cons.1 h with h | h
        · exact .inr (by simp [h])
        · rcases ih h with h | h
          · exact .inl h
          · exact .inr (by simp [h])

/-- Every write keeps the canonical form. -/
theorem Memory.wf_write {m : Memory} (i v : Nat) (hm : Memory.wf m = true) :
    Memory.wf (Memory.write m i v) = true := by
  induction m with
  | nil => exact Memory.wf_cons_op (by simp) hm
  | cons d m ih =>
    obtain ⟨j, u⟩ := d
    obtain ⟨h1, h2, h3⟩ := Memory.wf_cons hm
    rw [Memory.write]
    split
    · rename_i hij
      refine Memory.wf_cons_op (fun c hc => ?_) hm
      rcases List.mem_cons.1 hc with rfl | hc
      · exact hij
      · exact hij.trans (h1 c hc)
    · split
      · rename_i hij
        exact Memory.wf_cons_op (fun c hc => hij ▸ h1 c hc) h3
      · rename_i hlt hne
        refine Memory.wf_cons_of (fun c hc => ?_) h2 (ih h3)
        rcases Memory.mem_write hc with rfl | hc
        · show j < i
          omega
        · exact h1 c hc

/-- Reading after a write: the value written at its index, the old value elsewhere. -/
theorem Memory.read_write_wf {m : Memory} (i v j : Nat) (hm : Memory.wf m = true) :
    Memory.read (Memory.write m i v) j = if i = j then v else Memory.read m j := by
  induction m with
  | nil => exact Memory.read_cons_op v j (by simp)
  | cons d m ih =>
    obtain ⟨k, u⟩ := d
    obtain ⟨h1, h2, h3⟩ := Memory.wf_cons hm
    rw [Memory.write]
    split
    · rename_i hik
      refine Memory.read_cons_op v j (fun c hc => ?_)
      rcases List.mem_cons.1 hc with rfl | hc
      · exact hik
      · exact hik.trans (h1 c hc)
    · split
      · rename_i hik
        rw [Memory.read_cons_op v j (fun c hc => hik ▸ h1 c hc), Memory.read_cons]
        by_cases hij : i = j
        · simp [hij]
        · rw [if_neg hij, if_neg hij, if_neg (show ¬ k = j by omega)]
      · rename_i hlt hne
        rw [Memory.read_cons, Memory.read_cons, ih h3]
        by_cases hkj : k = j
        · rw [if_pos hkj, if_pos hkj, if_neg (by have : k = j := hkj; omega)]
        · rw [if_neg hkj, if_neg hkj]

/-! ### Ring indices -/

theorem ringIndex_lt {c : Config} (h : 0 < c.RING_CAP) (e : Int) : ringIndex c e < c.RING_CAP := by
  unfold ringIndex
  have h1 := Int.emod_lt_of_pos e (b := (c.RING_CAP : Int)) (by omega)
  have h2 := Int.emod_nonneg e (b := (c.RING_CAP : Int)) (by omega)
  omega

/-- A natural expression's ring index is its remainder. -/
theorem ringIndex_natCast (c : Config) (n : Nat) : ringIndex c (n : Int) = n % c.RING_CAP := by
  unfold ringIndex
  rw [← Int.natCast_emod, Int.toNat_natCast]

/-- A multiple of the capacity does not change a ring index. -/
theorem ringIndex_add_cap (c : Config) (e : Int) : ringIndex c (e + c.RING_CAP) = ringIndex c e := by
  unfold ringIndex
  rw [Int.add_emod_right]

/-- Two expressions less than a turn apart have different ring indices. -/
theorem ringIndex_ne {c : Config} {a b : Int} (h1 : a < b) (h2 : b - a < c.RING_CAP) :
    ringIndex c a ≠ ringIndex c b := by
  unfold ringIndex
  intro h
  have hp : (0 : Int) < c.RING_CAP := by omega
  have ha := Int.emod_nonneg a (b := (c.RING_CAP : Int)) (by omega)
  have hb := Int.emod_nonneg b (b := (c.RING_CAP : Int)) (by omega)
  have he : a % c.RING_CAP = b % c.RING_CAP := by omega
  have hd : (c.RING_CAP : Int) ∣ b - a := Int.dvd_of_emod_eq_zero (Int.emod_eq_emod_iff_emod_sub_eq_zero.1 he.symm)
  have := Int.le_of_dvd (by omega) hd
  omega

/-! ### Arithmetic modulo a power of two -/

theorem lowBits_lt (n v : Nat) : lowBits n v < 2 ^ n := Nat.mod_lt _ (Nat.two_pow_pos n)

theorem lowBits_of_lt {n v : Nat} (h : v < 2 ^ n) : lowBits n v = v := Nat.mod_eq_of_lt h

theorem addMod_lt (n a b : Nat) : addMod n a b < 2 ^ n := Nat.mod_lt _ (Nat.two_pow_pos n)

theorem subMod_lt (n a b : Nat) : subMod n a b < 2 ^ n := by
  unfold subMod
  have hp : (0 : Int) < ((2 ^ n : Nat) : Int) := by have := Nat.two_pow_pos n; omega
  have h1 := Int.emod_lt_of_pos ((a : Int) - b) hp
  have h2 := Int.emod_nonneg ((a : Int) - b) (b := ((2 ^ n : Nat) : Int)) (by omega)
  omega

/-- `a -_n b` leads back from `b` to `a`. -/
theorem add_subMod (n a b : Nat) : (b + subMod n a b) % 2 ^ n = a % 2 ^ n := by
  unfold subMod
  have hp : (0 : Int) < ((2 ^ n : Nat) : Int) := by have := Nat.two_pow_pos n; omega
  have h2 := Int.emod_nonneg ((a : Int) - b) (b := ((2 ^ n : Nat) : Int)) (by omega)
  have h : (((b + (((a : Int) - b) % ((2 ^ n : Nat) : Int)).toNat : Nat) : Int)) % ((2 ^ n : Nat) : Int)
      = (a : Int) % ((2 ^ n : Nat) : Int) := by
    rw [Int.natCast_add, Int.toNat_of_nonneg h2, Int.add_emod_emod]
    congr 1
    omega
  exact_mod_cast h

/-- The duration is the only natural of its width that leads from `b` to `a`. -/
theorem subMod_unique {n a b d : Nat} (hd : d < 2 ^ n) (h : (b + d) % 2 ^ n = a % 2 ^ n) :
    subMod n a b = d := by
  have h1 := subMod_lt n a b
  have h2 : (b + subMod n a b) ≡ (b + d) [MOD 2 ^ n] := (add_subMod n a b).trans h.symm
  have h3 := Nat.ModEq.add_left_cancel' b h2
  exact Nat.ModEq.eq_of_lt_of_lt h3 h1 hd

theorem subMod_lowBits (n a b : Nat) : subMod n (lowBits n a) b = subMod n a b := by
  refine (subMod_unique (subMod_lt n a b) ?_)
  rw [add_subMod, lowBits, Nat.mod_mod]

end Sys2Proof.Machine
end

