-- ==== Sys2Proof/Laws/Operands.lean ====
section
/-! SUPPORT. What each operand computation says: the predicates as propositions, the duration, the packed
bytes and the checksum. -/

namespace Sys2Proof.Machine

theorem within_iff (d ref tol : Nat) : within d ref tol = true ↔ SampleIn d ref tol := by
  simp [within, SampleIn]

theorem within_eq_false_iff (d ref tol : Nat) : within d ref tol = false ↔ ¬ SampleIn d ref tol := by
  rw [← within_iff, Bool.not_eq_true]

theorem isNoise_iff (c : Config) (d : Nat) : isNoise c d = true ↔ ¬ ValidPulse c d := by
  simp only [isNoise, ValidPulse, Bool.or_eq_true, decide_eq_true_eq, not_and_or, Nat.not_le]

theorem isNoise_of_valid {c : Config} {d : Nat} (h : ValidPulse c d) : isNoise c d = false := by
  rw [← Bool.not_eq_true, isNoise_iff]
  exact not_not_intro h

theorem syncPairMatch_iff (c : Config) (rb : Memory) (i k : Nat) :
    syncPairMatch c rb i k = true ↔
      SampleIn (Memory.read rb (ringIndex c ((i : Int) - 7 + 2 * (k : Int)))) c.SYNC_HIGH c.SYNC_TOL
        ∧ SampleIn (Memory.read rb (ringIndex c ((i : Int) - 6 + 2 * (k : Int)))) c.SYNC_LOW
          c.SYNC_TOL := by
  simp only [syncPairMatch, Bool.and_eq_true, within_iff, ringRead]

theorem syncMatch_iff (c : Config) (rb : Memory) (i : Nat) :
    syncMatch c rb i = true ↔ SyncWindow c rb i := by
  simp only [syncMatch, Bool.and_eq_true, syncPairMatch_iff, SyncWindow]
  constructor
  · rintro ⟨⟨⟨h0, h1⟩, h2⟩, h3⟩ k hk
    match k, hk with
    | 0, _ => exact h0
    | 1, _ => exact h1
    | 2, _ => exact h2
    | 3, _ => exact h3
  · intro h
    exact ⟨⟨⟨h 0 (by decide), h 1 (by decide)⟩, h 2 (by decide)⟩, h 3 (by decide)⟩

theorem syncMatch_eq_false_iff (c : Config) (rb : Memory) (i : Nat) :
    syncMatch c rb i = false ↔ ¬ SyncWindow c rb i := by
  rw [← syncMatch_iff, Bool.not_eq_true]

/-- The newest sample of a matching window lies in the sync-low window. -/
theorem SyncWindow.newest {c : Config} {rb : Memory} {i : Nat} (hi : i < c.RING_CAP)
    (h : SyncWindow c rb i) : SampleIn (Memory.read rb i) c.SYNC_LOW c.SYNC_TOL := by
  have h3 := (h 3 (by decide)).2
  have he : (i : Int) - 6 + 2 * ((3 : Nat) : Int) = (i : Int) := by omega
  rwa [he, ringIndex_natCast, Nat.mod_eq_of_lt hi] at h3

theorem match1_iff (c : Config) (h l : Nat) : match1 c h l = true ↔ FitsBit1 c h l := by
  simp only [match1, Bool.and_eq_true, within_iff, FitsBit1]

theorem match0_iff (c : Config) (h l : Nat) : match0 c h l = true ↔ FitsBit0 c h l := by
  simp only [match0, Bool.and_eq_true, within_iff, FitsBit0]

/-- R163 as propositions. -/
theorem classify_eq_some_iff (c : Config) (h l : Nat) (b : Bool) :
    classify c h l = some b ↔ ClassifiesAs c h l b := by
  have h1 := match1_iff c h l
  have h0 := match0_iff c h l
  unfold classify ClassifiesAs
  rw [← h1, ← h0]
  cases match1 c h l <;> cases match0 c h l <;> cases b <;> simp

theorem classify_eq_none_iff (c : Config) (h l : Nat) :
    classify c h l = none ↔ ClassifiesNone c h l := by
  have h1 := match1_iff c h l
  have h0 := match0_iff c h l
  unfold classify ClassifiesNone
  rw [← h1, ← h0]
  cases match1 c h l <;> cases match0 c h l <;> simp

/-- The duration an edge is assigned is the one `IsDuration` names. -/
theorem duration_eq {c : Config} {prev t d : Nat} (h : IsDuration c prev t d) :
    duration c (lowBits c.TS_W t) prev = d := by
  unfold duration
  rw [subMod_lowBits]
  exact subMod_unique h.1 h.2

theorem isDuration_duration (c : Config) (prev t : Nat) :
    IsDuration c prev t (duration c (lowBits c.TS_W t) prev) := by
  unfold duration
  rw [subMod_lowBits]
  exact ⟨subMod_lt _ _ _, add_subMod _ _ _⟩

/-- What R8 gives a proof. -/
theorem Config.wf_iff (c : Config) : c.wf = true ↔
    1 ≤ c.PULSE_MIN ∧ c.PULSE_MIN ≤ c.PULSE_MAX ∧ c.PULSE_MAX ≤ 2 ^ c.DUR_W - 1
      ∧ 120 ≤ c.RING_CAP ∧ c.RING_CAP ≤ 256 ∧ c.DUR_W ≤ c.TS_W ∧ N_DATA_EDGES < 2 ^ c.EC_W - 1 := by
  simp [Config.wf, and_assoc]

/-- R55: a valid duration is stored whole. -/
theorem lowBits_of_valid {c : Config} {d : Nat} (hc : c.wf = true) (h : ValidPulse c d) :
    lowBits c.DUR_W d = d := by
  rw [Config.wf_iff] at hc
  have := Nat.two_pow_pos c.DUR_W
  exact lowBits_of_lt (by have := h.2; omega)

/-- A valid duration is below `2 ^ TS_W`. -/
theorem valid_lt_two_pow {c : Config} {d : Nat} (hc : c.wf = true) (h : ValidPulse c d) :
    d < 2 ^ c.TS_W := by
  rw [Config.wf_iff] at hc
  have h1 := Nat.two_pow_pos c.DUR_W
  have h2 : 2 ^ c.DUR_W ≤ 2 ^ c.TS_W := Nat.pow_le_pow_right (by decide) hc.2.2.2.2.2.1
  have := h.2
  omega

/-- R165: bit `7 - m` of byte `n`. -/
theorem packByte_getLsbD (bits : List Bool) (n m : Nat) (hm : m < 8) :
    (packByte bits n).getLsbD (7 - m) = bits.getD (8 * n + m) false := by
  unfold packByte
  have : m = 0 ∨ m = 1 ∨ m = 2 ∨ m = 3 ∨ m = 4 ∨ m = 5 ∨ m = 6 ∨ m = 7 := by omega
  rcases this with rfl | rfl | rfl | rfl | rfl | rfl | rfl | rfl <;>
    simp only [BitVec.getLsbD_append, BitVec.getLsbD_ofBool] <;> simp

theorem packFrame_getElem (bits : List Bool) (n : Nat) (h : n < 7) :
    (packFrame bits)[n] = packByte bits n := by
  have : n = 0 ∨ n = 1 ∨ n = 2 ∨ n = 3 ∨ n = 4 ∨ n = 5 ∨ n = 6 := by omega
  rcases this with rfl | rfl | rfl | rfl | rfl | rfl | rfl <;> rfl

/-- R165: the packed frame is the only one that packs the bits. -/
theorem packFrame_eq {bits : List Bool} {bit : Nat → Bool} {f : Vector Byte 7}
    (hb : ∀ j, j < N_BITS → bits.getD j false = bit j) (hf : PacksTo bit f) :
    packFrame bits = f := by
  ext1 n hn
  rw [packFrame_getElem bits n hn]
  apply BitVec.eq_of_getLsbD_eq
  intro i hi
  have h := packByte_getLsbD bits n (7 - i) (by omega)
  rw [show 7 - (7 - i) = i by omega] at h
  rw [h, hb _ (by unfold N_BITS; omega), ← hf n hn (7 - i) (by omega),
    show 7 - (7 - i) = i by omega]

/-- R166. -/
theorem checksum_toNat (f : Vector Byte 7) : (checksum f).toNat = byteSum f % 256 := by
  unfold checksum byteSum
  rw [BitVec.toNat_ofNat]
  omega

theorem checksum_eq_iff (f : Vector Byte 7) (b : Byte) :
    checksum f = b ↔ byteSum f % 256 = b.toNat := by
  rw [← BitVec.toNat_inj, checksum_toNat]

end Sys2Proof.Machine
end

