-- ==== Sys2Proof/Laws/State.lean ====
section
/-! SUPPORT. One lemma per field per named update of the state, true by definition, so that no proof
unfolds a record update. -/

namespace Sys2Proof.Machine

@[simp] theorem clearOutputs_cfg (s : State) : (clearOutputs s).cfg = s.cfg := rfl

@[simp] theorem clearOutputs_LET (s : State) : (clearOutputs s).LET = s.LET := rfl

@[simp] theorem clearOutputs_PR (s : State) : (clearOutputs s).PR = s.PR := rfl

@[simp] theorem clearOutputs_RB (s : State) : (clearOutputs s).RB = s.RB := rfl

@[simp] theorem clearOutputs_IDX (s : State) : (clearOutputs s).IDX = s.IDX := rfl

@[simp] theorem clearOutputs_EC (s : State) : (clearOutputs s).EC = s.EC := rfl

@[simp] theorem clearOutputs_SF (s : State) : (clearOutputs s).SF = s.SF := rfl

@[simp] theorem clearOutputs_ANCHOR (s : State) : (clearOutputs s).ANCHOR = s.ANCHOR := rfl

@[simp] theorem clearOutputs_FR (s : State) : (clearOutputs s).FR = s.FR := rfl

@[simp] theorem clearOutputs_FRAME (s : State) : (clearOutputs s).FRAME = s.FRAME := rfl

@[simp] theorem clearOutputs_FV (s : State) : (clearOutputs s).FV = s.FV := rfl

@[simp] theorem clearOutputs_LAST_ERR (s : State) : (clearOutputs s).LAST_ERR = s.LAST_ERR := rfl

@[simp] theorem clearOutputs_rsp (s : State) : (clearOutputs s).rsp = none := rfl

@[simp] theorem clearOutputs_err (s : State) : (clearOutputs s).err = none := rfl

@[simp] theorem clearOutputs_inputs (s : State) : (clearOutputs s).inputs = s.inputs := rfl

@[simp] theorem clearOutputs_draws (s : State) : (clearOutputs s).draws = s.draws := rfl

@[simp] theorem captureReset_cfg (s : State) : (captureReset s).cfg = s.cfg := rfl

@[simp] theorem captureReset_LET (s : State) : (captureReset s).LET = s.LET := rfl

@[simp] theorem captureReset_PR (s : State) : (captureReset s).PR = s.PR := rfl

@[simp] theorem captureReset_RB (s : State) : (captureReset s).RB = s.RB := rfl

@[simp] theorem captureReset_IDX (s : State) : (captureReset s).IDX = s.IDX := rfl

@[simp] theorem captureReset_EC (s : State) : (captureReset s).EC = 0 := rfl

@[simp] theorem captureReset_SF (s : State) : (captureReset s).SF = false := rfl

@[simp] theorem captureReset_ANCHOR (s : State) : (captureReset s).ANCHOR = 0 := rfl

@[simp] theorem captureReset_FR (s : State) : (captureReset s).FR = false := rfl

@[simp] theorem captureReset_FRAME (s : State) : (captureReset s).FRAME = s.FRAME := rfl

@[simp] theorem captureReset_FV (s : State) : (captureReset s).FV = s.FV := rfl

@[simp] theorem captureReset_LAST_ERR (s : State) : (captureReset s).LAST_ERR = s.LAST_ERR := rfl

@[simp] theorem captureReset_rsp (s : State) : (captureReset s).rsp = s.rsp := rfl

@[simp] theorem captureReset_err (s : State) : (captureReset s).err = s.err := rfl

@[simp] theorem captureReset_inputs (s : State) : (captureReset s).inputs = s.inputs := rfl

@[simp] theorem captureReset_draws (s : State) : (captureReset s).draws = s.draws := rfl

@[simp] theorem raiseError_cfg (e : CoreError) (s : State) : (raiseError e s).cfg = s.cfg := rfl

@[simp] theorem raiseError_LET (e : CoreError) (s : State) : (raiseError e s).LET = s.LET := rfl

@[simp] theorem raiseError_PR (e : CoreError) (s : State) : (raiseError e s).PR = s.PR := rfl

@[simp] theorem raiseError_RB (e : CoreError) (s : State) : (raiseError e s).RB = s.RB := rfl

@[simp] theorem raiseError_IDX (e : CoreError) (s : State) : (raiseError e s).IDX = s.IDX := rfl

@[simp] theorem raiseError_EC (e : CoreError) (s : State) : (raiseError e s).EC = s.EC := rfl

@[simp] theorem raiseError_SF (e : CoreError) (s : State) : (raiseError e s).SF = s.SF := rfl

@[simp] theorem raiseError_ANCHOR (e : CoreError) (s : State) :
    (raiseError e s).ANCHOR = s.ANCHOR := rfl

@[simp] theorem raiseError_FR (e : CoreError) (s : State) : (raiseError e s).FR = s.FR := rfl

@[simp] theorem raiseError_FRAME (e : CoreError) (s : State) :
    (raiseError e s).FRAME = s.FRAME := rfl

@[simp] theorem raiseError_FV (e : CoreError) (s : State) : (raiseError e s).FV = s.FV := rfl

@[simp] theorem raiseError_LAST_ERR (e : CoreError) (s : State) :
    (raiseError e s).LAST_ERR = e.code := rfl

@[simp] theorem raiseError_rsp (e : CoreError) (s : State) : (raiseError e s).rsp = s.rsp := rfl

@[simp] theorem raiseError_err (e : CoreError) (s : State) :
    (raiseError e s).err = some ⟨e.code, e.info⟩ := rfl

@[simp] theorem raiseError_inputs (e : CoreError) (s : State) :
    (raiseError e s).inputs = s.inputs := rfl

@[simp] theorem raiseError_draws (e : CoreError) (s : State) :
    (raiseError e s).draws = s.draws := rfl

@[simp] theorem respond_cfg (ill : Bool) (data : Byte) (s : State) :
    (respond ill data s).cfg = s.cfg := rfl

@[simp] theorem respond_LET (ill : Bool) (data : Byte) (s : State) :
    (respond ill data s).LET = s.LET := rfl

@[simp] theorem respond_PR (ill : Bool) (data : Byte) (s : State) :
    (respond ill data s).PR = s.PR := rfl

@[simp] theorem respond_RB (ill : Bool) (data : Byte) (s : State) :
    (respond ill data s).RB = s.RB := rfl

@[simp] theorem respond_IDX (ill : Bool) (data : Byte) (s : State) :
    (respond ill data s).IDX = s.IDX := rfl

@[simp] theorem respond_EC (ill : Bool) (data : Byte) (s : State) :
    (respond ill data s).EC = s.EC := rfl

@[simp] theorem respond_SF (ill : Bool) (data : Byte) (s : State) :
    (respond ill data s).SF = s.SF := rfl

@[simp] theorem respond_ANCHOR (ill : Bool) (data : Byte) (s : State) :
    (respond ill data s).ANCHOR = s.ANCHOR := rfl

@[simp] theorem respond_FR (ill : Bool) (data : Byte) (s : State) :
    (respond ill data s).FR = s.FR := rfl

@[simp] theorem respond_FRAME (ill : Bool) (data : Byte) (s : State) :
    (respond ill data s).FRAME = s.FRAME := rfl

@[simp] theorem respond_FV (ill : Bool) (data : Byte) (s : State) :
    (respond ill data s).FV = s.FV := rfl

@[simp] theorem respond_LAST_ERR (ill : Bool) (data : Byte) (s : State) :
    (respond ill data s).LAST_ERR = s.LAST_ERR := rfl

@[simp] theorem respond_rsp (ill : Bool) (data : Byte) (s : State) :
    (respond ill data s).rsp = some (BitVec.ofBool ill ++ data) := rfl

@[simp] theorem respond_err (ill : Bool) (data : Byte) (s : State) :
    (respond ill data s).err = s.err := rfl

@[simp] theorem respond_inputs (ill : Bool) (data : Byte) (s : State) :
    (respond ill data s).inputs = s.inputs := rfl

@[simp] theorem respond_draws (ill : Bool) (data : Byte) (s : State) :
    (respond ill data s).draws = s.draws := rfl

@[simp] theorem append_cfg (d : Micros) (s : State) : (append d s).cfg = s.cfg := rfl

@[simp] theorem append_LET (d : Micros) (s : State) : (append d s).LET = s.LET := rfl

@[simp] theorem append_PR (d : Micros) (s : State) : (append d s).PR = s.PR := rfl

@[simp] theorem append_RB (d : Micros) (s : State) :
    (append d s).RB = Memory.write s.RB (appendIndex s) (lowBits s.cfg.DUR_W d) := rfl

@[simp] theorem append_IDX (d : Micros) (s : State) :
    (append d s).IDX = BitVec.ofNat 8 (appendIndex s) := rfl

@[simp] theorem append_EC (d : Micros) (s : State) : (append d s).EC = s.EC := rfl

@[simp] theorem append_SF (d : Micros) (s : State) : (append d s).SF = s.SF := rfl

@[simp] theorem append_ANCHOR (d : Micros) (s : State) : (append d s).ANCHOR = s.ANCHOR := rfl

@[simp] theorem append_FR (d : Micros) (s : State) : (append d s).FR = s.FR := rfl

@[simp] theorem append_FRAME (d : Micros) (s : State) : (append d s).FRAME = s.FRAME := rfl

@[simp] theorem append_FV (d : Micros) (s : State) : (append d s).FV = s.FV := rfl

@[simp] theorem append_LAST_ERR (d : Micros) (s : State) :
    (append d s).LAST_ERR = s.LAST_ERR := rfl

@[simp] theorem append_rsp (d : Micros) (s : State) : (append d s).rsp = s.rsp := rfl

@[simp] theorem append_err (d : Micros) (s : State) : (append d s).err = s.err := rfl

@[simp] theorem append_inputs (d : Micros) (s : State) : (append d s).inputs = s.inputs := rfl

@[simp] theorem append_draws (d : Micros) (s : State) : (append d s).draws = s.draws := rfl

@[simp] theorem countEdge_cfg (s : State) : (countEdge s).cfg = s.cfg := rfl

@[simp] theorem countEdge_LET (s : State) : (countEdge s).LET = s.LET := rfl

@[simp] theorem countEdge_PR (s : State) : (countEdge s).PR = s.PR := rfl

@[simp] theorem countEdge_RB (s : State) : (countEdge s).RB = s.RB := rfl

@[simp] theorem countEdge_IDX (s : State) : (countEdge s).IDX = s.IDX := rfl

@[simp] theorem countEdge_EC (s : State) : (countEdge s).EC = addMod s.cfg.EC_W s.EC 1 := rfl

@[simp] theorem countEdge_SF (s : State) : (countEdge s).SF = s.SF := rfl

@[simp] theorem countEdge_ANCHOR (s : State) : (countEdge s).ANCHOR = s.ANCHOR := rfl

@[simp] theorem countEdge_FR (s : State) : (countEdge s).FR = s.FR := rfl

@[simp] theorem countEdge_FRAME (s : State) : (countEdge s).FRAME = s.FRAME := rfl

@[simp] theorem countEdge_FV (s : State) : (countEdge s).FV = s.FV := rfl

@[simp] theorem countEdge_LAST_ERR (s : State) : (countEdge s).LAST_ERR = s.LAST_ERR := rfl

@[simp] theorem countEdge_rsp (s : State) : (countEdge s).rsp = s.rsp := rfl

@[simp] theorem countEdge_err (s : State) : (countEdge s).err = s.err := rfl

@[simp] theorem countEdge_inputs (s : State) : (countEdge s).inputs = s.inputs := rfl

@[simp] theorem countEdge_draws (s : State) : (countEdge s).draws = s.draws := rfl

@[simp] theorem resetCore_cfg (s : State) : (resetCore s).cfg = s.cfg := rfl

@[simp] theorem resetCore_LET (s : State) : (resetCore s).LET = 0 := rfl

@[simp] theorem resetCore_PR (s : State) : (resetCore s).PR = false := rfl

@[simp] theorem resetCore_RB (s : State) : (resetCore s).RB = [] := rfl

@[simp] theorem resetCore_IDX (s : State) :
    (resetCore s).IDX = BitVec.ofNat 8 (s.cfg.RING_CAP - 1) := rfl

@[simp] theorem resetCore_EC (s : State) : (resetCore s).EC = 0 := rfl

@[simp] theorem resetCore_SF (s : State) : (resetCore s).SF = false := rfl

@[simp] theorem resetCore_ANCHOR (s : State) : (resetCore s).ANCHOR = 0 := rfl

@[simp] theorem resetCore_FR (s : State) : (resetCore s).FR = false := rfl

@[simp] theorem resetCore_FRAME (s : State) : (resetCore s).FRAME = Vector.replicate 7 0 := rfl

@[simp] theorem resetCore_FV (s : State) : (resetCore s).FV = false := rfl

@[simp] theorem resetCore_LAST_ERR (s : State) : (resetCore s).LAST_ERR = 0 := rfl

@[simp] theorem resetCore_rsp (s : State) : (resetCore s).rsp = none := rfl

@[simp] theorem resetCore_err (s : State) : (resetCore s).err = none := rfl

@[simp] theorem resetCore_inputs (s : State) : (resetCore s).inputs = s.inputs := rfl

@[simp] theorem resetCore_draws (s : State) : (resetCore s).draws = s.draws := rfl

@[simp] theorem present_cfg (x : PortWord) (s : State) : (State.present x s).cfg = s.cfg := rfl

@[simp] theorem present_LET (x : PortWord) (s : State) : (State.present x s).LET = s.LET := rfl

@[simp] theorem present_PR (x : PortWord) (s : State) : (State.present x s).PR = s.PR := rfl

@[simp] theorem present_RB (x : PortWord) (s : State) : (State.present x s).RB = s.RB := rfl

@[simp] theorem present_IDX (x : PortWord) (s : State) : (State.present x s).IDX = s.IDX := rfl

@[simp] theorem present_EC (x : PortWord) (s : State) : (State.present x s).EC = s.EC := rfl

@[simp] theorem present_SF (x : PortWord) (s : State) : (State.present x s).SF = s.SF := rfl

@[simp] theorem present_ANCHOR (x : PortWord) (s : State) :
    (State.present x s).ANCHOR = s.ANCHOR := rfl

@[simp] theorem present_FR (x : PortWord) (s : State) : (State.present x s).FR = s.FR := rfl

@[simp] theorem present_FRAME (x : PortWord) (s : State) :
    (State.present x s).FRAME = s.FRAME := rfl

@[simp] theorem present_FV (x : PortWord) (s : State) : (State.present x s).FV = s.FV := rfl

@[simp] theorem present_LAST_ERR (x : PortWord) (s : State) :
    (State.present x s).LAST_ERR = s.LAST_ERR := rfl

@[simp] theorem present_rsp (x : PortWord) (s : State) : (State.present x s).rsp = s.rsp := rfl

@[simp] theorem present_err (x : PortWord) (s : State) : (State.present x s).err = s.err := rfl

@[simp] theorem present_inputs (x : PortWord) (s : State) :
    (State.present x s).inputs = Presentation.ofWord x :: s.inputs := rfl

@[simp] theorem present_draws (x : PortWord) (s : State) :
    (State.present x s).draws = s.draws := rfl

@[simp] theorem syncCheck_cfg (s : State) : (syncCheck s).cfg = s.cfg := by
  unfold syncCheck; split <;> rfl

@[simp] theorem syncCheck_LET (s : State) : (syncCheck s).LET = s.LET := by
  unfold syncCheck; split <;> rfl

@[simp] theorem syncCheck_PR (s : State) : (syncCheck s).PR = s.PR := by
  unfold syncCheck; split <;> rfl

@[simp] theorem syncCheck_RB (s : State) : (syncCheck s).RB = s.RB := by
  unfold syncCheck; split <;> rfl

@[simp] theorem syncCheck_IDX (s : State) : (syncCheck s).IDX = s.IDX := by
  unfold syncCheck; split <;> rfl

@[simp] theorem syncCheck_FR (s : State) : (syncCheck s).FR = s.FR := by
  unfold syncCheck; split <;> rfl

@[simp] theorem syncCheck_FRAME (s : State) : (syncCheck s).FRAME = s.FRAME := by
  unfold syncCheck; split <;> rfl

@[simp] theorem syncCheck_FV (s : State) : (syncCheck s).FV = s.FV := by
  unfold syncCheck; split <;> rfl

@[simp] theorem syncCheck_LAST_ERR (s : State) : (syncCheck s).LAST_ERR = s.LAST_ERR := by
  unfold syncCheck; split <;> rfl

@[simp] theorem syncCheck_rsp (s : State) : (syncCheck s).rsp = s.rsp := by
  unfold syncCheck; split <;> rfl

@[simp] theorem syncCheck_err (s : State) : (syncCheck s).err = s.err := by
  unfold syncCheck; split <;> rfl

@[simp] theorem syncCheck_inputs (s : State) : (syncCheck s).inputs = s.inputs := by
  unfold syncCheck; split <;> rfl

@[simp] theorem syncCheck_draws (s : State) : (syncCheck s).draws = s.draws := by
  unfold syncCheck; split <;> rfl

@[simp] theorem phaseCheck_cfg (s : State) : (phaseCheck s).cfg = s.cfg := by
  unfold phaseCheck; (repeat' split) <;> rfl

@[simp] theorem phaseCheck_LET (s : State) : (phaseCheck s).LET = s.LET := by
  unfold phaseCheck; (repeat' split) <;> rfl

@[simp] theorem phaseCheck_PR (s : State) : (phaseCheck s).PR = s.PR := by
  unfold phaseCheck; (repeat' split) <;> rfl

@[simp] theorem phaseCheck_RB (s : State) : (phaseCheck s).RB = s.RB := by
  unfold phaseCheck; (repeat' split) <;> rfl

@[simp] theorem phaseCheck_IDX (s : State) : (phaseCheck s).IDX = s.IDX := by
  unfold phaseCheck; (repeat' split) <;> rfl

@[simp] theorem phaseCheck_FRAME (s : State) : (phaseCheck s).FRAME = s.FRAME := by
  unfold phaseCheck; (repeat' split) <;> rfl

@[simp] theorem phaseCheck_FV (s : State) : (phaseCheck s).FV = s.FV := by
  unfold phaseCheck; (repeat' split) <;> rfl

@[simp] theorem phaseCheck_rsp (s : State) : (phaseCheck s).rsp = s.rsp := by
  unfold phaseCheck; (repeat' split) <;> rfl

@[simp] theorem phaseCheck_inputs (s : State) : (phaseCheck s).inputs = s.inputs := by
  unfold phaseCheck; (repeat' split) <;> rfl

@[simp] theorem phaseCheck_draws (s : State) : (phaseCheck s).draws = s.draws := by
  unfold phaseCheck; (repeat' split) <;> rfl

end Sys2Proof.Machine
end

