-- ==== Sys2Proof/Laws/Edge.lean ====
section
/-! SUPPORT. What an EDGE step does, case by case (40_edge_capture.md R110), and what it can do at all. -/

namespace Sys2Proof.Machine

theorem appendIndex_eq (s : State) : appendIndex s = (s.IDX.toNat + 1) % s.cfg.RING_CAP := by
  unfold appendIndex
  rw [← ringIndex_natCast]
  congr 1

/-- Under R8 the index of an append fits in the 8 bits of `IDX`. -/
theorem appendIndex_toNat {s : State} (hc : s.cfg.wf = true) :
    (BitVec.ofNat 8 (appendIndex s)).toNat = appendIndex s := by
  rw [Config.wf_iff] at hc
  rw [BitVec.toNat_ofNat]
  have := Nat.mod_lt (s.IDX.toNat + 1) (y := s.cfg.RING_CAP) (by omega)
  rw [← appendIndex_eq] at this
  omega

theorem edgeStep_prime {s : State} {t : Nat} (h : s.PR = false) :
    edgeStep t s = { s with LET := t, PR := true } := by
  unfold edgeStep
  rw [h]
  rfl

theorem edgeStep_drop {s : State} {t : Nat} (h : s.PR = true) (hf : s.FR = true) :
    edgeStep t s = { s with LET := t } := by
  unfold edgeStep
  rw [h, hf]
  rfl

theorem edgeStep_noise {s : State} {t : Nat} (h : s.PR = true) (hf : s.FR = false)
    (hn : isNoise s.cfg (duration s.cfg t s.LET) = true) :
    edgeStep t s = raiseError (.pulseTiming (duration s.cfg t s.LET)) (captureReset { s with LET := t }) := by
  unfold edgeStep classifyPulse
  rw [h, hf]
  simp only [Bool.not_true, Bool.false_eq_true, if_false]
  rw [if_pos hn]

theorem edgeStep_ingest {s : State} {t : Nat} (h : s.PR = true) (hf : s.FR = false)
    (hn : isNoise s.cfg (duration s.cfg t s.LET) = false) :
    edgeStep t s = ingest (duration s.cfg t s.LET) { s with LET := t } := by
  unfold edgeStep classifyPulse
  rw [h, hf]
  simp only [Bool.not_true, Bool.false_eq_true, if_false]
  rw [if_neg (by simp [hn])]

/-- What the sync check can do. -/
theorem syncCheck_cases (s : State) :
    (SyncWindow s.cfg s.RB s.IDX.toNat
        ∧ syncCheck s = { s with SF := true, ANCHOR := s.IDX, EC := 0 })
      ∨ (¬ SyncWindow s.cfg s.RB s.IDX.toNat ∧ syncCheck s = s) := by
  unfold syncCheck
  by_cases h : syncMatch s.cfg s.RB s.IDX.toNat = true
  · exact .inl ⟨(syncMatch_iff _ _ _).1 h, if_pos h⟩
  · exact .inr ⟨fun hw => h ((syncMatch_iff _ _ _).2 hw), if_neg h⟩

/-- The raise of an overrun reads the `EC` that the capture reset has zeroed. -/
theorem overrun_eq (s : State) : overrun s = raiseError (.frameOverrun 0) (captureReset s) := rfl

/-- What the frame-phase check can do. -/
theorem phaseCheck_cases (s : State) :
    (s.SF = false ∧ phaseCheck s = s)
      ∨ (s.SF = true ∧ s.EC < N_DATA_EDGES ∧ phaseCheck s = s)
      ∨ (s.SF = true ∧ s.EC = N_DATA_EDGES ∧ phaseCheck s = { s with FR := true })
      ∨ (s.SF = true ∧ N_DATA_EDGES < s.EC
          ∧ phaseCheck s = raiseError (.frameOverrun 0) (captureReset s)) := by
  unfold phaseCheck
  rcases Bool.eq_false_or_eq_true s.SF with h | h
  · right
    rw [if_pos h]
    rcases Nat.lt_trichotomy s.EC N_DATA_EDGES with hlt | heq | hgt
    · exact .inl ⟨h, hlt, by rw [if_neg (by omega), if_neg (by omega)]⟩
    · exact .inr (.inl ⟨h, heq, by rw [if_pos heq]⟩)
    · exact .inr (.inr ⟨h, hgt, by rw [if_neg (by omega), if_pos hgt, overrun_eq]⟩)
  · exact .inl ⟨h, by rw [if_neg (by simp [h])]⟩

/-- The state after the append and the count, before the checks. -/
def stored (d : Micros) (s : State) : State := countEdge (append d s)

theorem ingest_eq (d : Micros) (s : State) : ingest d s = phaseCheck (syncCheck (stored d s)) := rfl

/-- What an ingested duration can do: anchor, stay, complete the frame, or overrun. -/
theorem ingest_cases (d : Micros) (s : State) :
    (SyncWindow s.cfg (stored d s).RB (stored d s).IDX.toNat
        ∧ ingest d s = { stored d s with SF := true, ANCHOR := (stored d s).IDX, EC := 0 })
      ∨ (¬ SyncWindow s.cfg (stored d s).RB (stored d s).IDX.toNat
          ∧ ((s.SF = false ∧ ingest d s = stored d s)
            ∨ (s.SF = true ∧ (stored d s).EC < N_DATA_EDGES ∧ ingest d s = stored d s)
            ∨ (s.SF = true ∧ (stored d s).EC = N_DATA_EDGES
                ∧ ingest d s = { stored d s with FR := true })
            ∨ (s.SF = true ∧ N_DATA_EDGES < (stored d s).EC
                ∧ ingest d s = raiseError (.frameOverrun 0) (captureReset (stored d s))))) := by
  rw [ingest_eq]
  rcases syncCheck_cases (stored d s) with ⟨hw, he⟩ | ⟨hw, he⟩
  · refine .inl ⟨hw, ?_⟩
    rw [he]
    rcases phaseCheck_cases { stored d s with SF := true, ANCHOR := (stored d s).IDX, EC := 0 } with
      h | h | h | h
    · exact absurd h.1 (by simp)
    · exact h.2.2
    · exact absurd h.2.1 (by simp [N_DATA_EDGES])
    · exact absurd h.2.1 (by simp)
  · refine .inr ⟨hw, ?_⟩
    rw [he]
    exact phaseCheck_cases (stored d s)

/-- What an EDGE step can do: prime, drop, reset on noise, or ingest. -/
theorem edgeStep_cases (t : Nat) (s : State) :
    (s.PR = false ∧ edgeStep t s = { s with LET := t, PR := true })
      ∨ (s.PR = true ∧ s.FR = true ∧ edgeStep t s = { s with LET := t })
      ∨ (s.PR = true ∧ s.FR = false ∧ ¬ ValidPulse s.cfg (duration s.cfg t s.LET)
          ∧ edgeStep t s = raiseError (.pulseTiming (duration s.cfg t s.LET))
              (captureReset { s with LET := t }))
      ∨ (s.PR = true ∧ s.FR = false ∧ ValidPulse s.cfg (duration s.cfg t s.LET)
          ∧ edgeStep t s = ingest (duration s.cfg t s.LET) { s with LET := t }) := by
  rcases Bool.eq_false_or_eq_true s.PR with hp | hp
  · right
    rcases Bool.eq_false_or_eq_true s.FR with hf | hf
    · exact .inl ⟨hp, hf, edgeStep_drop hp hf⟩
    · right
      by_cases hv : ValidPulse s.cfg (duration s.cfg t s.LET)
      · exact .inr ⟨hp, hf, hv, edgeStep_ingest hp hf (isNoise_of_valid hv)⟩
      · exact .inl ⟨hp, hf, hv, edgeStep_noise hp hf ((isNoise_iff _ _).2 hv)⟩
  · exact .inl ⟨hp, edgeStep_prime hp⟩

end Sys2Proof.Machine
end

