-- ==== Sys2Proof/Laws/Ports.lean ====
section
/-! SUPPORT. What the ports give a step, and what a step is. -/

namespace Sys2Proof.Machine

/-- A presentation of one transaction gives exactly it. -/
theorem fetch_single {s : State} {x : PortWord} {rest : List Presentation}
    (h : s.inputs = Presentation.ofWord x :: rest) : fetch s = .word x { s with inputs := rest } := by
  unfold fetch
  rw [h]
  cases x <;> rfl

/-- Taking a transaction changes the ports and the draw counter only. -/
theorem fetch_cases (s : State) :
    ∃ (ins : List Presentation) (n : Nat),
      fetch s = .idle { s with inputs := ins, draws := n }
        ∨ ∃ x, fetch s = .word x { s with inputs := ins, draws := n } := by
  unfold fetch
  split
  · exact ⟨s.inputs, s.draws, .inl rfl⟩
  · split
    · split
      · exact ⟨_, _, .inr ⟨_, rfl⟩⟩
      · exact ⟨_, _, .inr ⟨_, rfl⟩⟩
    · exact ⟨_, s.draws, .inr ⟨_, rfl⟩⟩
    · exact ⟨_, s.draws, .inr ⟨_, rfl⟩⟩
    · split
      · exact ⟨_, s.draws, .inr ⟨_, rfl⟩⟩
      · exact ⟨_, s.draws, .inl rfl⟩

/-- A step of a well-formed configuration with one transaction presented first. -/
theorem step_single {s : State} {x : PortWord} {rest : List Presentation} (hc : s.cfg.wf = true)
    (h : s.inputs = Presentation.ofWord x :: rest) :
    step s = exec (decode s.cfg x) { s with inputs := rest } := by
  unfold step
  rw [if_pos hc, fetch_single h]

/-- What a step can be: idle, or one transaction performed. -/
theorem step_cases {s : State} (hc : s.cfg.wf = true) :
    ∃ (ins : List Presentation) (n : Nat),
      step s = .next (clearOutputs { s with inputs := ins, draws := n })
        ∨ ∃ x, step s = exec (decode s.cfg x) { s with inputs := ins, draws := n } := by
  obtain ⟨ins, n, h | ⟨x, h⟩⟩ := fetch_cases s
  · exact ⟨ins, n, .inl (by unfold step; rw [if_pos hc, h])⟩
  · exact ⟨ins, n, .inr ⟨x, by unfold step; rw [if_pos hc, h]⟩⟩

/-- A step that answers a next state has a well-formed configuration. -/
theorem wf_of_step {s s' : State} (h : step s = .next s') : s.cfg.wf = true := by
  unfold step at h
  split at h
  · assumption
  · cases h

/-- The meaning of an instruction as a function of the state: no meaning stops. -/
def execState : Instr → State → State
  | .edge t, s => edgeStep (lowBits s.cfg.TS_W t) (clearOutputs s)
  | .reset, s => resetCore s
  | .nop _, s => answer 0x00 s
  | .poll, s => pollStep (clearOutputs s)
  | .rdframe n, s =>
    if h : n.toNat < N_BYTES then answer s.FRAME[n.toNat] s else illegalCommand 0x27 s
  | .rdstat0, s => answer (statusView s) s
  | .rdstat1, s => answer (edgeCountView s) s
  | .rdstat2, s => answer s.ANCHOR s
  | .rdstat3, s => answer s.IDX s
  | .illegal w, s => illegalCommand w s

/-- Every instruction answers a next state from every state. -/
theorem exec_eq (i : Instr) (s : State) : exec i s = .next (execState i s) := by
  cases i with
  | rdframe n =>
    show execRdframe n s = _
    unfold execRdframe execState
    dsimp only
    split <;> rfl
  | _ => rfl

theorem exec_next_iff (i : Instr) (s s' : State) : exec i s = .next s' ↔ s' = execState i s := by
  rw [exec_eq]
  constructor
  · intro h; cases h; rfl
  · rintro rfl; rfl

/-- The instruction a port's word decodes to is well formed. -/
theorem decode_wf_edge (c : Config) (w : Nat) : (decode c (.edge w)).wf c = true := by
  simp [decode, Instr.wf, lowBits, Nat.mod_lt _ (Nat.two_pow_pos c.TS_W)]

end Sys2Proof.Machine
end

