-- ==== Sys2Proof/Laws/Invariants.lean ====
section
/-! SUPPORT. How the invariants follow a state that keeps, or captures, the elements they are about; what storing
a valid duration does to the ring; and that no meaning sees the ports. -/

namespace Sys2Proof.Machine

/-- The bounds a well-formed configuration gives. -/
theorem CoreInv.bounds {s : State} (h : CoreInv s) :
    120 ≤ s.cfg.RING_CAP ∧ s.cfg.RING_CAP ≤ 256 ∧ 114 ≤ 2 ^ s.cfg.EC_W ∧ 1 ≤ s.cfg.PULSE_MIN := by
  have := (Config.wf_iff _).1 h.cfg_wf
  simp only [N_DATA_EDGES] at this
  omega

/-- The invariants are about the configuration, the ring and the capture; a new timestamp keeps them. -/
theorem CoreInv.same {s s' : State} (h : CoreInv s) (h1 : s'.cfg = s.cfg)
    (h2 : s'.LET < 2 ^ s.cfg.TS_W) (h3 : s'.RB = s.RB) (h4 : s'.IDX = s.IDX) (h5 : s'.EC = s.EC)
    (h6 : s'.SF = s.SF) (h7 : s'.ANCHOR = s.ANCHOR) (h8 : s'.FR = s.FR) : CoreInv s' := by
  obtain ⟨a, b, c, d, e, f, g, i, j, k, l, m, n⟩ := h
  constructor <;> simp only [h1, h3, h4, h5, h6, h7, h8] <;> assumption

/-- A capture reset keeps the invariants. -/
theorem CoreInv.captured {s s' : State} (h : CoreInv s) (h1 : s'.cfg = s.cfg)
    (h2 : s'.LET < 2 ^ s.cfg.TS_W) (h3 : s'.RB = s.RB) (h4 : s'.IDX = s.IDX) (h5 : s'.EC = 0)
    (h6 : s'.SF = false) (h7 : s'.ANCHOR = 0) (h8 : s'.FR = false) : CoreInv s' := by
  obtain ⟨a, b, c, d, e, f, g, i, j, k, l, m, n⟩ := h
  constructor <;> simp only [h1, h3, h4, h5, h6, h7, h8] <;> first | assumption | simp
  omega

/-- Storing a valid duration: the index advances in the ring, the form is kept, and one entry changes. -/
theorem CoreInv.stored_ring {s : State} (h : CoreInv s) {d : Nat} (hv : ValidPulse s.cfg d) :
    (stored d s).IDX.toNat = (s.IDX.toNat + 1) % s.cfg.RING_CAP
      ∧ (stored d s).IDX.toNat < s.cfg.RING_CAP ∧ Memory.wf (stored d s).RB = true
      ∧ (∀ i, Memory.read (stored d s).RB i =
        if (stored d s).IDX.toNat = i then d else Memory.read s.RB i) := by
  have hp := h.bounds
  have hi : (stored d s).IDX.toNat = appendIndex s := appendIndex_toNat h.cfg_wf
  refine ⟨by rw [hi, appendIndex_eq], by rw [hi, appendIndex_eq]; exact Nat.mod_lt _ (by omega),
    Memory.wf_write _ _ h.ring_wf, fun i => ?_⟩
  rw [hi]
  show Memory.read (Memory.write s.RB (appendIndex s) (lowBits s.cfg.DUR_W d)) i = _
  rw [lowBits_of_valid h.cfg_wf hv, Memory.read_write_wf _ _ _ h.ring_wf]

/-- While no frame is pending and the core is synced, the count has room and does not wrap. -/
theorem CoreInv.count_room {s : State} (h : CoreInv s) (hf : s.FR = false) (hs : s.SF = true) :
    (s.EC + 1) % 2 ^ s.cfg.EC_W = s.EC + 1 ∧ s.EC < N_DATA_EDGES := by
  have h1 := h.synced_count hs
  have h2 := h.ready_iff
  have h4 := h.bounds
  simp only [N_DATA_EDGES] at h1 h2 ⊢
  rw [hf, hs] at h2
  simp at h2
  rw [Nat.mod_eq_of_lt (by omega)]
  omega

/-- The entries since the match stay where a state that is still synced keeps the ring and the capture. -/
theorem EntriesAre.same {s s' : State} {ds : List Nat} (h : EntriesAre s ds)
    (hs : s'.SF = true → s.SF = true ∧ s'.RB = s.RB ∧ s'.ANCHOR = s.ANCHOR ∧ s'.EC = s.EC
      ∧ s'.cfg = s.cfg) : EntriesAre s' ds := by
  intro hx
  obtain ⟨h1, h2, h3, h4, h5⟩ := hs hx
  have := h h1
  unfold dataDuration at *
  rw [h2, h3, h4, h5]
  exact this

/-- The checks that follow an append do not see the ports. -/
theorem checks_with_inputs (s : State) (ins : List Presentation) :
    phaseCheck (syncCheck { s with inputs := ins })
      = { phaseCheck (syncCheck s) with inputs := ins } := by
  have h1 : syncCheck { s with inputs := ins } = { syncCheck s with inputs := ins } := by
    unfold syncCheck
    simp only []
    split <;> rfl
  rw [h1]
  generalize syncCheck s = s
  unfold phaseCheck
  simp only []
  split
  · split
    · rfl
    · split <;> rfl
  · rfl

/-- POLL does not see the ports. -/
theorem pollStep_with_inputs (s : State) (ins : List Presentation) :
    pollStep { s with inputs := ins } = { pollStep s with inputs := ins } := by
  unfold pollStep
  simp only []
  by_cases hf : (!s.FR) = true
  · rw [if_pos hf, if_pos hf]; rfl
  · rw [if_neg hf, if_neg hf]
    cases decodePairs s.cfg s.RB s.ANCHOR.toNat N_BITS 0 with
    | error j => rfl
    | ok bits =>
      simp only []
      unfold validateFrame
      by_cases hc : checksum (packFrame bits) ≠ (packFrame bits)[6]
      · rw [if_pos hc, if_pos hc]; rfl
      · rw [if_neg hc, if_neg hc]; rfl

/-- EDGE does not see the ports. -/
theorem edgeStep_with_inputs (t : Nat) (s : State) (ins : List Presentation) :
    edgeStep t { s with inputs := ins } = { edgeStep t s with inputs := ins } := by
  rcases Bool.eq_false_or_eq_true s.PR with hp | hp
  · rcases Bool.eq_false_or_eq_true s.FR with hf | hf
    · rw [edgeStep_drop hp hf, edgeStep_drop (s := { s with inputs := ins }) hp hf]
    · rcases Bool.eq_false_or_eq_true (isNoise s.cfg (duration s.cfg t s.LET)) with hn | hn
      · rw [edgeStep_noise hp hf hn, edgeStep_noise (s := { s with inputs := ins }) hp hf hn]
        rfl
      · rw [edgeStep_ingest hp hf hn, edgeStep_ingest (s := { s with inputs := ins }) hp hf hn]
        exact checks_with_inputs (stored (duration s.cfg t s.LET) { s with LET := t }) ins
  · rw [edgeStep_prime hp, edgeStep_prime (s := { s with inputs := ins }) hp]

/-- No meaning sees the ports. -/
theorem execState_with_inputs (i : Instr) (s : State) (ins : List Presentation) :
    execState i { s with inputs := ins } = { execState i s with inputs := ins } := by
  cases i with
  | edge t => exact edgeStep_with_inputs _ (clearOutputs s) ins
  | poll => exact pollStep_with_inputs (clearOutputs s) ins
  | rdframe n =>
    simp only [execState]
    by_cases hn : n.toNat < N_BYTES
    · rw [dif_pos hn, dif_pos hn]; rfl
    · rw [dif_neg hn, dif_neg hn]; rfl
  | _ => rfl

/-- A run's first transaction. -/
theorem runInstrs_cons (i : Instr) (is : List Instr) (s : State) :
    runInstrs (i :: is) s = runInstrs is (execState i s) := by
  simp only [runInstrs, exec_eq]

/-- A run in two parts. -/
theorem runInstrs_append {a : List Instr} (b : List Instr) {s t : State}
    (h : runInstrs a s = .next t) : runInstrs (a ++ b) s = runInstrs b t := by
  induction a generalizing s with
  | nil => cases h; rfl
  | cons i is ih =>
    rw [runInstrs_cons] at h
    rw [List.cons_append, runInstrs_cons]
    exact ih h

end Sys2Proof.Machine
end

