-- ==== Sys2Proof/Laws/PerInstr.lean ====
section
/-! SUPPORT. A law per instruction, about the instruction as syntax: its word has its port's length and is read
at that port as that word. -/

namespace Sys2Proof.Laws.EncodeLength

/-- R79: the word of a well-formed instruction is a bit string of its port's length, and the port reads it
as that word. -/
def Statement (i : Instr) : Prop :=
  ∀ c : Config, i.wf c = true →
    wordAt c (encode i).port ((encode i).port.bits c) (encode i).value = .ok (encode i)

theorem command_word (c : Config) (w : Byte) :
    wordAt c .command ((Port.command).bits c) w.toNat = .ok (.command w) := by
  have : w.toNat < 256 := w.isLt
  simp [wordAt, Port.bits, this]

theorem edge (t : Micros) : Statement (.edge t) := by
  intro c h
  have h : t < 2 ^ c.TS_W := of_decide_eq_true h
  simp [wordAt, encode, PortWord.port, Port.bits, PortWord.value, Nat.not_le.2 h]

theorem reset : Statement .reset := fun c _ => by
  simp [wordAt, encode, PortWord.port, Port.bits, PortWord.value]

theorem nop (a : BitVec 3) : Statement (.nop a) := fun c _ => command_word c _

theorem poll : Statement .poll := fun c _ => command_word c _

theorem rdframe (n : BitVec 3) : Statement (.rdframe n) := fun c _ => command_word c _

theorem rdstat0 : Statement .rdstat0 := fun c _ => command_word c _

theorem rdstat1 : Statement .rdstat1 := fun c _ => command_word c _

theorem rdstat2 : Statement .rdstat2 := fun c _ => command_word c _

theorem rdstat3 : Statement .rdstat3 := fun c _ => command_word c _

theorem illegal (w : Byte) : Statement (.illegal w) := fun c _ => command_word c w

end Sys2Proof.Laws.EncodeLength
end

