-- ==== Sys2Proof/Laws/Poll.lean ====
section
/-! SUPPORT. What the decode of POLL gives: the bits of the pairs, or the first pair that classifies NONE; and
what POLL does in each case. -/

namespace Sys2Proof.Machine

/-- The decode succeeds exactly when every pair classifies, and gives the pairs' bits in order. -/
theorem decodePairs_ok_iff (c : Config) (rb : Memory) (a n j : Nat) (bs : List Bool) :
    decodePairs c rb a n j = .ok bs ↔ bs.length = n ∧
      ∀ k, k < n → classify c (pairHigh c rb a (j + k)) (pairLow c rb a (j + k)) = some (bs.getD k false) := by
  induction n generalizing j bs with
  | zero =>
    cases bs <;> simp [decodePairs]
  | succ n ih =>
    unfold decodePairs
    cases h : classify c (pairHigh c rb a j) (pairLow c rb a j) with
    | none =>
      constructor
      · intro h'; cases h'
      · rintro ⟨-, hk⟩
        have := hk 0 (by omega)
        rw [Nat.add_zero, h] at this
        cases this
    | some b =>
      cases hr : decodePairs c rb a n (j + 1) with
      | error e =>
        simp only [reduceCtorEq, false_iff, not_and]
        intro hlen hk
        cases bs with
        | nil => simp at hlen
        | cons b' bs =>
          have := (ih (j + 1) bs).2 ⟨by simpa using hlen, fun k hk' => by
            have := hk (k + 1) (by omega)
            rwa [show j + (k + 1) = j + 1 + k by omega] at this⟩
          rw [hr] at this
          cases this
      | ok bs' =>
        have hih := (ih (j + 1) bs').1 hr
        constructor
        · intro h'
          cases h'
          refine ⟨by simp [hih.1], fun k hk => ?_⟩
          cases k with
          | zero => simpa using h
          | succ k =>
            have := hih.2 k (by omega)
            rwa [show j + (k + 1) = j + 1 + k by omega]
        · rintro ⟨hlen, hk⟩
          cases bs with
          | nil => simp at hlen
          | cons b0 bs =>
            have h0 := hk 0 (by omega)
            rw [Nat.add_zero, h] at h0
            have hb : b = b0 := by simpa using h0
            have := (ih (j + 1) bs).2 ⟨by simpa using hlen, fun k hk' => by
              have := hk (k + 1) (by omega)
              rwa [show j + (k + 1) = j + 1 + k by omega] at this⟩
            rw [hr] at this
            cases this
            rw [hb]

/-- The decode stops at the lowest pair that classifies NONE. -/
theorem decodePairs_error_of (c : Config) (rb : Memory) (a n j k : Nat) (hk : k < n)
    (hb : ∀ m, m < k → ∃ b, classify c (pairHigh c rb a (j + m)) (pairLow c rb a (j + m)) = some b)
    (hn : classify c (pairHigh c rb a (j + k)) (pairLow c rb a (j + k)) = none) :
    decodePairs c rb a n j = .error (j + k) := by
  induction n generalizing j k with
  | zero => omega
  | succ n ih =>
    unfold decodePairs
    cases k with
    | zero => rw [Nat.add_zero] at hn; rw [hn]; rfl
    | succ k =>
      obtain ⟨b, hb0⟩ := hb 0 (by omega)
      rw [Nat.add_zero] at hb0
      rw [hb0]
      have := ih (j + 1) k (by omega)
        (fun m hm => by
          obtain ⟨b', hb'⟩ := hb (m + 1) (by omega)
          exact ⟨b', by rwa [show j + 1 + m = j + (m + 1) by omega]⟩)
        (by rwa [show j + 1 + k = j + (k + 1) by omega])
      simp only [this]
      rw [show j + 1 + k = j + (k + 1) by omega]

theorem pairHigh_eq (s : State) (j : Nat) :
    pairHigh s.cfg s.RB s.ANCHOR.toNat j = dataDuration s (1 + 2 * j) := by
  unfold pairHigh dataDuration ringRead
  congr 2
  omega

theorem pairLow_eq (s : State) (j : Nat) :
    pairLow s.cfg s.RB s.ANCHOR.toNat j = dataDuration s (2 + 2 * j) := by
  unfold pairLow dataDuration ringRead
  congr 2
  omega

/-- The decode of the pending frame when every pair classifies. -/
theorem decode_frame_ok {s : State} {bit : Nat → Bool} (h : ∀ j, j < N_BITS → PairIs s j (bit j)) :
    decodePairs s.cfg s.RB s.ANCHOR.toNat N_BITS 0 = .ok ((List.range N_BITS).map bit) := by
  rw [decodePairs_ok_iff]
  refine ⟨by simp, fun k hk => ?_⟩
  rw [Nat.zero_add, classify_eq_some_iff, pairHigh_eq, pairLow_eq]
  have := h k hk
  simpa [hk] using this

/-- The decode of the pending frame when pair `j` is the first to classify NONE. -/
theorem decode_frame_error {s : State} {j : Nat} (hj : j < N_BITS)
    (hb : ∀ k, k < j → ∃ b, PairIs s k b) (hn : PairIsNone s j) :
    decodePairs s.cfg s.RB s.ANCHOR.toNat N_BITS 0 = .error j := by
  have := decodePairs_error_of s.cfg s.RB s.ANCHOR.toNat N_BITS 0 j hj
    (fun m hm => by
      obtain ⟨b, h⟩ := hb m hm
      exact ⟨b, by rw [Nat.zero_add, classify_eq_some_iff, pairHigh_eq, pairLow_eq]; exact h⟩)
    (by rw [Nat.zero_add, classify_eq_none_iff, pairHigh_eq, pairLow_eq]; exact hn)
  rwa [Nat.zero_add] at this

/-- What POLL can do: NOT_READY, BitDecodeError, ChecksumError or OK. -/
theorem pollStep_cases (s : State) :
    (s.FR = false ∧ pollStep s = respond false 0x00 s)
    ∨ (s.FR = true ∧ ∃ j, pollStep s = pollBitError j s)
    ∨ (s.FR = true ∧ ∃ f : Vector Byte 7, checksum f ≠ f[6]
        ∧ pollStep s = pollChecksumError (checksum f) f[6] s)
    ∨ (s.FR = true ∧ ∃ f : Vector Byte 7, checksum f = f[6] ∧ pollStep s = pollOk f s) := by
  unfold pollStep
  rcases Bool.eq_false_or_eq_true s.FR with hFR | hFR
  · right
    rw [if_neg (by simp [hFR])]
    cases decodePairs s.cfg s.RB s.ANCHOR.toNat N_BITS 0 with
    | error j => exact .inl ⟨hFR, j, rfl⟩
    | ok bits =>
      right
      simp only [validateFrame]
      by_cases h : checksum (packFrame bits) = (packFrame bits)[6]
      · exact .inr ⟨hFR, _, h, by rw [if_neg (not_not_intro h)]⟩
      · exact .inl ⟨hFR, _, h, by rw [if_pos h]⟩
  · exact .inl ⟨hFR, by rw [if_pos (by simp [hFR])]⟩

end Sys2Proof.Machine
end

