-- ==== Sys2Proof/Laws/Pulses.lean ====
section
/-! SUPPORT. One accepted pulse, and the ring read backwards from its newest entry: what the claims about runs of
pulses are proved from. -/

namespace Sys2Proof.Machine

/-- R91: the edge of a pulse has the pulse's duration. -/
theorem pulse_isDuration {c : Config} (hc : c.wf = true) {prev d : Nat} (hv : ValidPulse c d) :
    IsDuration c prev (addMod c.TS_W prev d) d :=
  ⟨valid_lt_two_pow hc hv, by simp [addMod]⟩

theorem pulses_cons (s : State) (d : Nat) (ds : List Nat) :
    pulses s (d :: ds) = .edge (addMod s.cfg.TS_W s.LET d)
      :: pulses { s with LET := addMod s.cfg.TS_W s.LET d } ds := rfl

/-- The state after an accepted pulse. -/
def afterPulse (s : State) (d : Nat) : State :=
  ingest d { clearOutputs s with LET := addMod s.cfg.TS_W s.LET d }

/-- EDGE with a valid duration, primed and with no frame pending. -/
theorem execState_edge_ingest {s : State} {t d : Nat} (hp : s.PR = true) (hf : s.FR = false)
    (hd : IsDuration s.cfg s.LET t d) (hv : ValidPulse s.cfg d) :
    execState (.edge t) s = ingest d { clearOutputs s with LET := lowBits s.cfg.TS_W t } := by
  have hdc : duration (clearOutputs s).cfg (lowBits s.cfg.TS_W t) (clearOutputs s).LET = d :=
    duration_eq hd
  unfold execState
  dsimp only
  rw [edgeStep_ingest (by simpa using hp) (by simpa using hf)
    (by rw [hdc]; exact isNoise_of_valid hv), hdc]

/-- EDGE with a valid duration leads where the pulse of that duration does. -/
theorem execState_edge_afterPulse {s : State} {t d : Nat} (hp : s.PR = true) (hf : s.FR = false)
    (hd : IsDuration s.cfg s.LET t d) (hv : ValidPulse s.cfg d) :
    execState (.edge t) s = afterPulse s d := by
  rw [execState_edge_ingest hp hf hd hv]
  unfold afterPulse addMod lowBits
  rw [hd.2]

theorem execState_pulse {s : State} (hc : s.cfg.wf = true) (hp : s.PR = true) (hf : s.FR = false)
    {d : Nat} (hv : ValidPulse s.cfg d) :
    execState (.edge (addMod s.cfg.TS_W s.LET d)) s = afterPulse s d :=
  execState_edge_afterPulse hp hf (pulse_isDuration hc hv) hv

theorem afterPulse_cfg (s : State) (d : Nat) : (afterPulse s d).cfg = s.cfg := by
  simp [afterPulse, ingest]

theorem afterPulse_PR (s : State) (d : Nat) : (afterPulse s d).PR = s.PR := by
  simp [afterPulse, ingest]

theorem afterPulse_LET (s : State) (d : Nat) :
    (afterPulse s d).LET = addMod s.cfg.TS_W s.LET d := by
  simp [afterPulse, ingest]

theorem afterPulse_IDX (s : State) (d : Nat) :
    (afterPulse s d).IDX = BitVec.ofNat 8 (appendIndex s) := by
  simp [afterPulse, ingest, appendIndex]

theorem afterPulse_RB (s : State) (d : Nat) :
    (afterPulse s d).RB = Memory.write s.RB (appendIndex s) (lowBits s.cfg.DUR_W d) := by
  simp [afterPulse, ingest, appendIndex]

theorem afterPulse_IDX_toNat {s : State} (h : CoreInv s) {d : Nat} (hv : ValidPulse s.cfg d) :
    (afterPulse s d).IDX.toNat = (s.IDX.toNat + 1) % s.cfg.RING_CAP := by
  rw [afterPulse_IDX]
  exact (h.stored_ring hv).1

theorem afterPulse_read {s : State} (h : CoreInv s) {d : Nat} (hv : ValidPulse s.cfg d) (i : Nat) :
    Memory.read (afterPulse s d).RB i =
      if (afterPulse s d).IDX.toNat = i then d else Memory.read s.RB i := by
  rw [afterPulse_RB, afterPulse_IDX]
  exact (h.stored_ring hv).2.2.2 i

/-- A run of pulses: the first, and the rest from the state it leaves. -/
theorem runInstrs_pulses_cons {s : State} (h : CoreInv s) (hp : s.PR = true) (hf : s.FR = false)
    {d : Nat} {ds : List Nat} (hv : ValidPulse s.cfg d) :
    runInstrs (pulses s (d :: ds)) s = runInstrs (pulses (afterPulse s d) ds) (afterPulse s d) := by
  rw [pulses_cons, runInstrs_cons, execState_pulse h.cfg_wf hp hf hv]
  congr 1
  unfold pulses
  rw [afterPulse_cfg, afterPulse_LET]

/-- The ring entry `k` back from the newest. -/
def back (s : State) (k : Nat) : Nat :=
  Memory.read s.RB (ringIndex s.cfg ((s.IDX.toNat : Int) - (k : Int)))

theorem afterPulse_ringIndex {s : State} (h : CoreInv s) {d : Nat} (hv : ValidPulse s.cfg d)
    (k : Int) : ringIndex s.cfg ((afterPulse s d).IDX.toNat + k)
      = ringIndex s.cfg (s.IDX.toNat + 1 + k) := by
  rw [afterPulse_IDX_toNat h hv]
  unfold ringIndex
  rw [Int.natCast_emod, Int.emod_add_emod]
  rfl

/-- After a pulse the newest entry is its duration. -/
theorem back_afterPulse_zero {s : State} (h : CoreInv s) {d : Nat} (hv : ValidPulse s.cfg d) :
    back (afterPulse s d) 0 = d := by
  have hlt : (afterPulse s d).IDX.toNat < s.cfg.RING_CAP := by
    rw [afterPulse_IDX]
    exact (h.stored_ring hv).2.1
  unfold back
  rw [afterPulse_read h hv, if_pos]
  have : (((afterPulse s d).IDX.toNat : Int) - ((0 : Nat) : Int)) = ((afterPulse s d).IDX.toNat : Int) := by
    omega
  rw [this, ringIndex_natCast, afterPulse_cfg, Nat.mod_eq_of_lt hlt]

/-- After a pulse every other entry is one further back. -/
theorem back_afterPulse_succ {s : State} (h : CoreInv s) {d : Nat} (hv : ValidPulse s.cfg d)
    {k : Nat} (hk : k + 1 < s.cfg.RING_CAP) : back (afterPulse s d) (k + 1) = back s k := by
  have hlt : (afterPulse s d).IDX.toNat < s.cfg.RING_CAP := by
    rw [afterPulse_IDX]
    exact (h.stored_ring hv).2.1
  unfold back
  rw [afterPulse_cfg]
  have e := afterPulse_ringIndex h hv (-((k + 1 : Nat) : Int))
  rw [← Int.sub_eq_add_neg] at e
  rw [e, afterPulse_read h hv, if_neg]
  · congr 2
    omega
  · have e0 := afterPulse_ringIndex h hv 0
    rw [Int.add_zero, ringIndex_natCast, Nat.mod_eq_of_lt hlt] at e0
    rw [e0]
    exact (ringIndex_ne (by omega) (by omega)).symm

/-- The duration at position `k + 1` after the anchor, counted back from the newest entry. -/
theorem dataDuration_eq_back {t : State} (h : CoreInv t) (hs : t.SF = true) {k : Nat}
    (hk : k < t.EC) : dataDuration t (k + 1) = back t (t.EC - 1 - k) := by
  unfold dataDuration back
  congr 1
  have := h.index_of_count hs
  unfold ringIndex
  rw [this]
  congr 1
  rw [Int.natCast_emod, Int.emod_sub_emod]
  congr 1
  push_cast
  omega

/-- The window that ends at the newest entry, read backwards. -/
theorem syncWindow_iff_back (s : State) :
    SyncWindow s.cfg s.RB s.IDX.toNat ↔ ∀ k, k < 4 →
      SampleIn (back s (7 - 2 * k)) s.cfg.SYNC_HIGH s.cfg.SYNC_TOL
        ∧ SampleIn (back s (6 - 2 * k)) s.cfg.SYNC_LOW s.cfg.SYNC_TOL := by
  unfold SyncWindow back
  have : N_SYNC_PAIRS = 4 := rfl
  rw [this]
  refine forall_congr' fun k => forall_congr' fun hk => ?_
  rw [show ((s.IDX.toNat : Int) - ((7 - 2 * k : Nat) : Int)) = (s.IDX.toNat : Int) - 7 + 2 * (k : Int) by
      omega,
    show ((s.IDX.toNat : Int) - ((6 - 2 * k : Nat) : Int)) = (s.IDX.toNat : Int) - 6 + 2 * (k : Int) by
      omega]

/-- The window that an accepted pulse is checked against is the one its duration completes. -/
theorem afterPulse_window_iff {s : State} (hc : s.cfg.wf = true) {d : Nat} (hv : ValidPulse s.cfg d) :
    SyncWindow s.cfg (afterPulse s d).RB (afterPulse s d).IDX.toNat ↔ CompletesSync s d := by
  rw [afterPulse_RB, afterPulse_IDX, lowBits_of_valid hc hv, appendIndex_toNat hc, appendIndex_eq]

/-- What an accepted pulse does to the capture: a match anchors and zeroes the count; without one a
searching core keeps searching, and a synced one counts and is ready at the count 112. -/
theorem afterPulse_cases {s : State} (h : CoreInv s) (hf : s.FR = false) {d : Nat} :
    (SyncWindow s.cfg (afterPulse s d).RB (afterPulse s d).IDX.toNat ∧ (afterPulse s d).SF = true
      ∧ (afterPulse s d).FR = false ∧ (afterPulse s d).EC = 0
      ∧ (afterPulse s d).ANCHOR = (afterPulse s d).IDX)
    ∨ (¬ SyncWindow s.cfg (afterPulse s d).RB (afterPulse s d).IDX.toNat ∧
      ((s.SF = false ∧ (afterPulse s d).SF = false ∧ (afterPulse s d).FR = false)
      ∨ (s.SF = true ∧ (afterPulse s d).SF = true ∧ (afterPulse s d).EC = s.EC + 1
        ∧ (afterPulse s d).ANCHOR = s.ANCHOR
        ∧ ((afterPulse s d).FR = true ↔ s.EC + 1 = N_DATA_EDGES)))) := by
  have key := h.count_room hf
  rw [afterPulse_RB, afterPulse_IDX]
  unfold afterPulse
  generalize hs0 : ({ clearOutputs s with LET := addMod s.cfg.TS_W s.LET d } : State) = s0
  have hSF : s0.SF = s.SF := by rw [← hs0]; rfl
  have hFR : s0.FR = false := by rw [← hs0]; exact hf
  have hAN : s0.ANCHOR = s.ANCHOR := by rw [← hs0]; rfl
  have hIX : (stored d s0).IDX = BitVec.ofNat 8 (appendIndex s) := by rw [← hs0]; rfl
  have hRB : (stored d s0).RB = Memory.write s.RB (appendIndex s) (lowBits s.cfg.DUR_W d) := by
    rw [← hs0]; rfl
  have hEC : (stored d s0).EC = (s.EC + 1) % 2 ^ s.cfg.EC_W := by rw [← hs0]; rfl
  have hcf : s0.cfg = s.cfg := by rw [← hs0]; rfl
  rw [← hIX, ← hRB, ← hcf]
  rcases ingest_cases d s0 with ⟨hw, hr⟩ | ⟨hw, hr | hr | hr | hr⟩
  · exact .inl ⟨hw, by rw [hr]; exact ⟨rfl, hFR, rfl, rfl⟩⟩
  · exact .inr ⟨hw, .inl ⟨by rw [← hSF]; exact hr.1, by rw [hr.2]; exact ⟨hr.1, hFR⟩⟩⟩
  · have hk := key (by rw [← hSF]; exact hr.1)
    have hn : s.EC + 1 ≠ N_DATA_EDGES := by rw [← hk.1, ← hEC]; have := hr.2.1; omega
    refine .inr ⟨hw, .inr ⟨by rw [← hSF]; exact hr.1, ?_⟩⟩
    rw [hr.2.2]
    refine ⟨hr.1, by rw [← hk.1]; exact hEC, hAN, fun hx => ?_, fun hx => absurd hx hn⟩
    rw [show (stored d s0).FR = s0.FR from rfl, hFR] at hx
    cases hx
  · have hk := key (by rw [← hSF]; exact hr.1)
    have hn : s.EC + 1 = N_DATA_EDGES := by rw [← hk.1, ← hEC]; exact hr.2.1
    refine .inr ⟨hw, .inr ⟨by rw [← hSF]; exact hr.1, ?_⟩⟩
    rw [hr.2.2]
    exact ⟨hr.1, by rw [← hk.1]; exact hEC, hAN, fun _ => hn, fun _ => rfl⟩
  · exfalso
    have hk := key (by rw [← hSF]; exact hr.1)
    have := hr.2.1
    rw [hEC, hk.1] at this
    omega

end Sys2Proof.Machine
end

