-- ==== Sys2Proof/Laws/Trace.lean ====
section
/-! SUPPORT. A run of pulses as lines of a trace: what the expansion of the pseudo-instructions is proved from. -/

namespace Sys2Proof.Machine

/-- A run of pulses is one `PULSE` line for each. -/
theorem expandPulses_eq_lines (c : Config) (T : Nat) (ds : List Nat) :
    expandPulses c T ds = expandLines c T (ds.map .pulse) := by
  induction ds generalizing T with
  | nil => rfl
  | cons d ds ih =>
    simp only [List.map_cons, expandLines, ← ih]
    rfl

/-- Lines in two parts: the second starts at the running timestamp that the first leaves. -/
theorem expandLines_append (c : Config) (T : Nat) (a b : List TraceLine) :
    expandLines c T (a ++ b) =
      ((expandLines c T a).1 ++ (expandLines c (expandLines c T a).2 b).1,
        (expandLines c (expandLines c T a).2 b).2) := by
  induction a generalizing T with
  | nil => rfl
  | cons l a ih => simp only [List.cons_append, expandLines, ih, List.append_assoc]

theorem expandPulses_append (c : Config) (T : Nat) (a b : List Nat) :
    expandPulses c T (a ++ b) =
      ((expandPulses c T a).1 ++ (expandPulses c (expandPulses c T a).2 b).1,
        (expandPulses c (expandPulses c T a).2 b).2) := by
  simp only [expandPulses_eq_lines, List.map_append, expandLines_append]

end Sys2Proof.Machine
end

