-- ==== Sys2Proof/Tests/Slice0.lean ====
section
/-! SUPPORT. Tests on fixed values from the spec's encodings and vectors (95_test_vectors.md), and for every
statement with hypotheses a concrete state and operands that meet them. -/

namespace Sys2Proof.Machine

section Tests

set_option Elab.async false

/-! ### Well-formedness: each check refuses a term -/

theorem test_wf_timestamp_too_wide : (Instr.edge (2 ^ 32)).wf Config.TC = false := by decide

theorem test_wf_rdframe_seven : (Instr.rdframe 7).wf Config.TC = false := by decide

theorem test_wf_illegal_is_legal :
    (Instr.illegal 0x26).wf Config.TC = false ∧ (Instr.illegal 0x07).wf Config.TC = false
      ∧ (Instr.illegal 0x10).wf Config.TC = false ∧ (Instr.illegal 0x33).wf Config.TC = false := by
  decide

theorem test_wf_boundaries :
    (Instr.edge (2 ^ 32 - 1)).wf Config.TC = true ∧ (Instr.rdframe 6).wf Config.TC = true
      ∧ (Instr.illegal 0x27).wf Config.TC = true := by
  decide

theorem test_config_constraints :
    Config.TC.wf = true ∧ ({ Config.TC with PULSE_MIN := 0 } : Config).wf = false
      ∧ ({ Config.TC with PULSE_MIN := 1201 } : Config).wf = false
      ∧ ({ Config.TC with PULSE_MAX := 65536 } : Config).wf = false
      ∧ ({ Config.TC with RING_CAP := 119 } : Config).wf = false
      ∧ ({ Config.TC with RING_CAP := 257 } : Config).wf = false
      ∧ ({ Config.TC with TS_W := 15 } : Config).wf = false
      ∧ ({ Config.TC with EC_W := 6 } : Config).wf = false
      ∧ ({ Config.TC with RING_CAP := 256, EC_W := 7, PULSE_MAX := 65535 } : Config).wf = true := by
  decide +kernel

/-! ### Decoding: words written out from R71 to R77 -/

theorem test_decode_edge : decode Config.TC (.edge 0x000003E8) = .edge 1000 := by decide

theorem test_decode_reset : decode Config.TC .reset = .reset := by decide

theorem test_decode_nop : decode Config.TC (.command 0b00000101) = .nop 5 := by decide

theorem test_decode_poll : decode Config.TC (.command 0b00010000) = .poll := by decide

theorem test_decode_rdframe : decode Config.TC (.command 0b00100110) = .rdframe 6 := by decide

theorem test_decode_rdstat0 : decode Config.TC (.command 0b00110000) = .rdstat0 := by decide

theorem test_decode_rdstat1 : decode Config.TC (.command 0b00110001) = .rdstat1 := by decide

theorem test_decode_rdstat2 : decode Config.TC (.command 0b00110010) = .rdstat2 := by decide

theorem test_decode_rdstat3 : decode Config.TC (.command 0b00110011) = .rdstat3 := by decide

/-- One word for each of the conditions (a) to (e) of R77, and RSV set on an otherwise legal word. -/
theorem test_decode_illegal :
    [0b00001000, 0b01000000, 0b00010001, 0b00100111, 0b00110100, 0b00111000].all
      (fun w : Byte => decide (decode Config.TC (.command w) = .illegal w)) = true := by
  decide

/-- Each rejection of a bit string, by its name. -/
theorem test_decode_rejects :
    decodeAt Config.TC .edge 31 0 = .error (.wrongLength .edge 31)
      ∧ decodeAt Config.TC .command 8 256 = .error (.wordTooWide 8 256)
      ∧ decodeAt Config.TC .command 8 0x20 = .ok (.rdframe 0) := ⟨rfl, rfl, rfl⟩

/-- The opcode table's lengths, through the ports: the very next step runs the word. -/
theorem test_fetch_word :
    step (State.reset.withFetchWord 8 0x26) = exec (.rdframe 6) State.reset
      ∧ step (State.reset.withFetchWord 0 0) = exec .reset State.reset
      ∧ step (State.reset.withFetchWord 32 7) = exec (.edge 7) State.reset := ⟨rfl, rfl, rfl⟩

/-! ### Small states -/

/-- The vectors' `B0`: the state after `RESET; EDGE @1000`. -/
def B0 : State := { State.reset with LET := 1000, PR := true }

/-- A ring whose entries from index 0 on are the durations given. -/
def ringOf (ds : List Nat) : Memory := (List.range ds.length).zip ds

/-- Synced just now: the preamble's eight durations and nothing after them (S-1). -/
def synced : State :=
  { B0 with RB := ringOf (preambleDurations Config.TC), IDX := 7, SF := true, ANCHOR := 7 }

/-- Seven of the preamble's eight durations: the next 900 matches. -/
def almostSynced : State :=
  { B0 with RB := ringOf ((preambleDurations Config.TC).take 7), IDX := 6, EC := 7 }

/-- Synced, with data durations after the preamble. -/
def inData (ds : List Nat) : State :=
  { synced with
    RB := ringOf (preambleDurations Config.TC ++ ds), IDX := BitVec.ofNat 8 (7 + ds.length)
    EC := ds.length }

/-- A frame's durations pending. -/
def pending (bytes : List Nat) : State :=
  { inData (frameDurations Config.TC bytes) with FR := true }

/-- P1's frame, whose checksum 0x67 agrees. -/
def p1Bytes : List Nat := [0x8A, 0x3C, 0x44, 0x10, 0x05, 0x48, 0x67]

/-- P1's frame as the core packs it. -/
def p1Frame : Vector Byte 7 := #v[0x8A, 0x3C, 0x44, 0x10, 0x05, 0x48, 0x67]

/-- The same with P2's wrong checksum byte. -/
def badBytes : List Nat := [0x8A, 0x3C, 0x44, 0x10, 0x05, 0x48, 0x68]

def badFrame : Vector Byte 7 := #v[0x8A, 0x3C, 0x44, 0x10, 0x05, 0x48, 0x68]

/-- The bits of a frame by index. -/
def bitOf (f : Vector Byte 7) (j : Nat) : Bool := (f.toList.getD (j / 8) 0).getLsbD (7 - j % 8)

/-- A frame pending whose pair `j` is 300, 300, which fits neither pattern (C-9). -/
def badPair (j : Nat) : State :=
  let ds := frameDurations Config.TC p1Bytes
  { inData (ds.take (2 * j) ++ [300, 300] ++ ds.drop (2 * j + 2)) with FR := true }

/-- One transaction at the ports. -/
def presented (x : PortWord) (s : State) : State := State.present x s

/-- The state after an instruction satisfies a predicate. -/
abbrev Leads (i : Instr) (s : State) (P : State → Prop) : Prop := ∃ s', exec i s = .next s' ∧ P s'

theorem leads {i : Instr} {s : State} {P : State → Prop} (h : P (execState i s)) : Leads i s P :=
  ⟨_, exec_eq i s, h⟩

theorem step_leads {x : PortWord} {s : State} (hc : s.cfg.wf = true) :
    ∃ s', step (presented x s) = .next s' := by
  have h : step (presented x s) = _ := step_single (s := presented x s) (rest := s.inputs) hc rfl
  exact ⟨_, h.trans (exec_eq _ _)⟩

/-! ### One step each, on the spec's vectors -/

/-- E-8: one counter wrap between two edges. -/
theorem test_edge_counter_wrap :
    Leads (.edge 0x58) { B0 with LET := 0xFFFFFE00 } (fun s => s.LET = 0x58 ∧ s.IDX = 0
      ∧ s.RB = [(0, 600)] ∧ s.EC = 1 ∧ s.err = none) :=
  leads (by decide +kernel)

/-- E-9: an earlier timestamp is a long duration, hence noise. -/
theorem test_edge_earlier_timestamp :
    Leads (.edge 4000) { B0 with LET := 5000 } (fun s => s.LET = 4000 ∧ s.IDX = 119 ∧ s.RB = []
      ∧ s.LAST_ERR = 1 ∧ s.err = some ⟨1, 4294966296⟩) :=
  leads (by decide +kernel)

/-- P1: the frame's bytes, in order, and the re-arm. -/
theorem test_poll_p1 :
    Leads .poll (pending p1Bytes) (fun s => s.rsp = some 0x001 ∧ s.FRAME = p1Frame ∧ s.FV = true
      ∧ s.FR = false ∧ s.IDX = 119 ∧ s.err = none) :=
  leads (by decide +kernel)

/-- P2: the wrong checksum, 0x67 computed against 0x68. -/
theorem test_poll_p2 :
    Leads .poll (pending badBytes) (fun s => s.rsp = some 0x084 ∧ s.err = some ⟨4, 0x6768⟩
      ∧ s.FV = false ∧ s.LAST_ERR = 4) :=
  leads (by decide +kernel)

theorem test_reset_clears :
    Leads .reset { pending p1Bytes with LAST_ERR := 6, FV := true } (fun s => s = State.reset) :=
  leads (by decide +kernel)

theorem test_nop_hint : Leads (.nop 5) B0 (fun s => s.rsp = some 0x000 ∧ s.EC = 0) :=
  leads (by decide)

theorem test_rdframe_last :
    Leads (.rdframe 6) { B0 with FRAME := p1Frame } (fun s => s.rsp = some 0x067) :=
  leads (by decide +kernel)

/-- P1 before its POLL, and P3 after `.cmd 0x11`. -/
theorem test_rdstat0_p1_p3 :
    Leads .rdstat0 (pending p1Bytes) (fun s => s.rsp = some 0x00B)
      ∧ Leads .rdstat0 { pending p1Bytes with LAST_ERR := 6 } (fun s => s.rsp = some 0x06B) :=
  ⟨leads (by decide +kernel), leads (by decide +kernel)⟩

theorem test_rdstat1_p1 : Leads .rdstat1 (pending p1Bytes) (fun s => s.rsp = some 0x070) :=
  leads (by decide +kernel)

theorem test_rdstat2_p1 : Leads .rdstat2 (pending p1Bytes) (fun s => s.rsp = some 0x007) :=
  leads (by decide +kernel)

theorem test_rdstat3_p1 : Leads .rdstat3 (pending p1Bytes) (fun s => s.rsp = some 0x077) :=
  leads (by decide +kernel)

theorem test_illegal_p3 :
    Leads (.illegal 0x11) B0 (fun s => s.rsp = some 0x100 ∧ s.err = some ⟨6, 0x11⟩) :=
  leads (by decide +kernel)

/-! ### States that meet the invariants -/

/-- A read gives the value of an unlisted entry or a listed one. -/
theorem read_listed (m : Memory) (i : Nat) : Memory.read m i = 0 ∨ (i, Memory.read m i) ∈ m := by
  induction m with
  | nil => exact .inl rfl
  | cons c rest ih =>
    obtain ⟨j, v⟩ := c
    by_cases h : j = i
    · right
      subst h
      simp [Memory.read]
    · rw [Memory.read, if_neg h]
      rcases ih with h' | h'
      · exact .inl h'
      · exact .inr (List.mem_cons_of_mem _ h')

/-- What can be evaluated of the invariants. -/
def invCheck (s : State) : Bool :=
  s.cfg.wf && decide (s.LET < 2 ^ s.cfg.TS_W) && decide (s.EC < 2 ^ s.cfg.EC_W)
    && decide (s.IDX.toNat < s.cfg.RING_CAP) && decide (s.ANCHOR.toNat < s.cfg.RING_CAP)
    && decide (s.FR = true → s.SF = true) && decide (s.SF = true → s.EC ≤ N_DATA_EDGES)
    && decide (s.FR = true ↔ s.SF = true ∧ s.EC = N_DATA_EDGES)
    && decide (s.SF = false → s.ANCHOR = 0)
    && decide (s.SF = true → s.IDX.toNat = (s.ANCHOR.toNat + s.EC) % s.cfg.RING_CAP)
    && Memory.wf s.RB
    && s.RB.all (fun c => decide (c.1 < s.cfg.RING_CAP) && decide (ValidPulse s.cfg c.2))

theorem inv_of_check {s : State} (h : invCheck s = true) : CoreInv s := by
  simp only [invCheck, Bool.and_eq_true, decide_eq_true_eq, List.all_eq_true] at h
  obtain ⟨⟨⟨⟨⟨⟨⟨⟨⟨⟨⟨h1, h2⟩, h3⟩, h4⟩, h5⟩, h6⟩, h7⟩, h8⟩, h9⟩, h10⟩, h11⟩, h12⟩ := h
  refine ⟨h1, h2, h3, h4, h5, h6, h7, h8, h9, h10, h11, fun i hi => ?_, fun i => ?_⟩
  · rcases read_listed s.RB i with h | h
    · exact h
    · have := (h12 _ h).1
      dsimp only at this
      omega
  · rcases read_listed s.RB i with h | h
    · exact .inl h
    · exact .inr (h12 _ h).2

theorem inv_B0 : CoreInv B0 := inv_of_check (by decide +kernel)

theorem inv_synced : CoreInv synced := inv_of_check (by decide +kernel)

theorem inv_almostSynced : CoreInv almostSynced := inv_of_check (by decide +kernel)

theorem inv_pending : CoreInv (pending p1Bytes) := inv_of_check (by decide +kernel)

/-- P1's frame with only its last edge to come. -/
def lastEdge : State := inData ((frameDurations Config.TC p1Bytes).take 111)

theorem inv_lastEdge : CoreInv lastEdge :=
  inv_of_check (by decide +kernel)

/-! ### The hypotheses of each statement can be met -/

theorem test_hyps_StepRunsThePresentedInstruction :
    ∀ i ∈ [Instr.edge (2 ^ 32 - 1), .reset, .nop 7, .poll, .rdframe 6, .illegal 0x27],
      B0.cfg.wf = true ∧ i.wf B0.cfg = true
        ∧ (presented (encode i) B0).inputs = Presentation.ofWord (encode i) :: [] := by
  decide +kernel

theorem test_hyps_DecodeOfEncode :
    ∀ i ∈ [Instr.edge (2 ^ 32 - 1), .reset, .nop 7, .poll, .rdframe 6, .rdstat0, .rdstat1, .rdstat2,
      .rdstat3, .illegal 0x08, .illegal 0x27, .illegal 0xFF], i.wf Config.TC = true := by
  decide +kernel

theorem test_hyps_EncodeOfDecode :
    ∀ x ∈ [PortWord.edge (2 ^ 32 - 1), .command 0xFF, .reset], x.value < 2 ^ x.port.bits Config.TC := by
  decide +kernel

theorem test_hyps_TogetherInOneOrderOrTheOther :
    ∃ s : State, s.cfg.wf = true
      ∧ s.inputs = { edge := some 1600, command := some 0x10, reset := true } :: [] :=
  ⟨{ B0 with inputs := [{ edge := some 1600, command := some 0x10, reset := true }] },
    by decide +kernel, rfl⟩

theorem test_hyps_ResetAfterTheOthers :
    B0.cfg.wf = true
      ∧ (∃ s : State, s.cfg = B0.cfg ∧ s.inputs = { edge := some 1600, reset := true } :: [])
      ∧ (∃ s : State, s.cfg = B0.cfg ∧ s.inputs = { command := some 0x10, reset := true } :: [])
      ∧ (∃ s : State, s.cfg = B0.cfg ∧ s.inputs = { reset := true } :: []) :=
  ⟨by decide +kernel, ⟨{ B0 with inputs := [{ edge := some 1600, reset := true }] }, rfl, rfl⟩,
    ⟨{ B0 with inputs := [{ command := some 0x10, reset := true }] }, rfl, rfl⟩,
    ⟨{ B0 with inputs := [{ reset := true }] }, rfl, rfl⟩⟩

theorem test_hyps_EveryStepAnswersNext : B0.cfg.wf = true := by decide +kernel

/-- Each constraint violated, one at a time, at its bound. -/
theorem test_hyps_IllFormedConfigurationRefused :
    ∀ c ∈ [{ Config.TC with PULSE_MIN := 0 }, { Config.TC with PULSE_MIN := 1201 },
      { Config.TC with PULSE_MAX := 65536 }, { Config.TC with RING_CAP := 119 },
      { Config.TC with RING_CAP := 257 }, { Config.TC with TS_W := 15 }, { Config.TC with EC_W := 6 }],
      ¬ (1 ≤ c.PULSE_MIN ∧ c.PULSE_MIN ≤ c.PULSE_MAX ∧ c.PULSE_MAX ≤ 2 ^ c.DUR_W - 1
        ∧ 120 ≤ c.RING_CAP ∧ c.RING_CAP ≤ 256 ∧ c.DUR_W ≤ c.TS_W ∧ N_DATA_EDGES < 2 ^ c.EC_W - 1) := by
  decide +kernel

theorem test_hyps_ConfigurationNeverChanges :
    (∃ s', step (presented .reset B0) = .next s')
      ∧ (∃ s', step (presented (.edge 1600) B0) = .next s')
      ∧ (∃ s', step (presented (.command 0x10) B0) = .next s') :=
  ⟨step_leads (by decide +kernel), step_leads (by decide +kernel), step_leads (by decide +kernel)⟩

theorem test_hyps_RdframeAnswersTheByte :
    (0 : BitVec 3).toNat < 7 ∧ (6 : BitVec 3).toNat < 7 ∧ (7 : BitVec 3).toNat = 7 := by decide

/-- The greatest count that 8 bits hold, and the least that they do not. -/
theorem test_hyps_RdstatOneAnswersTheCount :
    { B0 with EC := 255 }.EC < 256
      ∧ 256 ≤ { B0 with EC := 256, cfg := { Config.TC with EC_W := 9 } }.EC := by
  decide +kernel

theorem test_hyps_ReadsDoNotSeeHiddenState :
    ∀ i ∈ [Instr.nop 0, .rdframe 6, .rdstat0, .rdstat1, .rdstat2, .rdstat3, .illegal 0xFF],
      isCommand i = true ∧ i ≠ .poll ∧ ∃ s', exec i B0 = .next s' := by
  intro i hi
  refine ⟨?_, ?_, _, exec_eq i B0⟩ <;> revert i hi <;> decide

theorem test_hyps_PollNotReady : B0.FR = false := by decide

theorem badPair_earlier :
    ∀ j ∈ [0, 55], ∀ k, k < j → PairIs (badPair j) k (bitOf p1Frame k) := by
  decide +kernel

/-- The lowest bad pair is the first, and the last. -/
theorem test_hyps_PollAbortsAtTheFirstBadPair :
    (∀ j ∈ [0, 55], (badPair j).FR = true ∧ j < N_BITS ∧ PairIsNone (badPair j) j)
      ∧ ∀ j ∈ [0, 55], ∀ k, k < j → ∃ b, PairIs (badPair j) k b :=
  ⟨by decide +kernel, fun j hj k hk => ⟨_, badPair_earlier j hj k hk⟩⟩

theorem test_hyps_PollRejectsAWrongChecksum :
    (pending badBytes).FR = true ∧ (∀ j, j < N_BITS → PairIs (pending badBytes) j (bitOf badFrame j))
      ∧ PacksTo (bitOf badFrame) badFrame ∧ byteSum badFrame % 256 ≠ badFrame[6].toNat := by
  decide +kernel

theorem test_hyps_PollValidatesTheFrame :
    (pending p1Bytes).FR = true ∧ (∀ j, j < N_BITS → PairIs (pending p1Bytes) j (bitOf p1Frame j))
      ∧ PacksTo (bitOf p1Frame) p1Frame ∧ byteSum p1Frame % 256 = p1Frame[6].toNat := by
  decide +kernel

theorem test_hyps_PollAlwaysRearms : (pending p1Bytes).FR = true ∧ B0.FR = false := by
  decide +kernel

/-- Each clause, with a tolerance that exceeds the reference too. -/
theorem test_hyps_ToleranceBoundary :
    700 = 600 + 100 ∧ 500 + 100 = 600 ∧ 701 = 600 + (100 + 1) ∧ 499 + (100 + 1) = 600
      ∧ within 30 10 20 = true ∧ within 0 10 20 = true ∧ within 31 10 20 = false := by
  decide

theorem test_hyps_ChecksumCatchesSingleBitFlips : checksum p1Frame = p1Frame[6] ∧ 5 < 6 ∧ 7 < 8 := by
  decide +kernel

theorem test_hyps_EdgePrimes : State.reset.PR = false := by decide

theorem test_hyps_EdgeDroppedWhileReady : (pending p1Bytes).FR = true := by decide +kernel

/-- E-3, E-6 and E-7: just outside each bound, and 0. -/
theorem test_hyps_EdgeNoiseResetsCapture :
    B0.PR = true ∧ B0.FR = false ∧ ∀ d ∈ [0, 99, 1201], IsDuration B0.cfg B0.LET (1000 + d) d
      ∧ ¬ ValidPulse B0.cfg d := by
  decide +kernel

/-- E-4 and E-5: each bound, from the index 119, so that the index wraps to 0. -/
theorem test_hyps_EdgeAppendsWhileSearching :
    B0.cfg.wf = true ∧ B0.PR = true ∧ B0.FR = false ∧ B0.SF = false ∧ B0.IDX = 119
      ∧ ∀ d ∈ [100, 1200], IsDuration B0.cfg B0.LET (1000 + d) d ∧ ValidPulse B0.cfg d
        ∧ ¬ SyncWindow B0.cfg (Memory.write B0.RB ((B0.IDX.toNat + 1) % B0.cfg.RING_CAP) d)
          ((B0.IDX.toNat + 1) % B0.cfg.RING_CAP) := by
  decide +kernel

/-- From SEARCHING at each bound of the last sample's window, and from DATA (a re-anchor, S-7). -/
theorem test_hyps_EdgeAnchorsOnSync :
    (∀ d ∈ [800, 900, 1000], almostSynced.cfg.wf = true ∧ almostSynced.PR = true
      ∧ almostSynced.FR = false ∧ IsDuration almostSynced.cfg almostSynced.LET (1000 + d) d
      ∧ ValidPulse almostSynced.cfg d
      ∧ SyncWindow almostSynced.cfg (Memory.write almostSynced.RB 7 d) 7
      ∧ (almostSynced.IDX.toNat + 1) % almostSynced.cfg.RING_CAP = 7)
    ∧ (inData [600]).SF = true ∧ (inData [600]).PR = true ∧ (inData [600]).FR = false
    ∧ IsDuration (inData [600]).cfg (inData [600]).LET 1900 900 ∧ ValidPulse (inData [600]).cfg 900
    ∧ SyncWindow (inData [600]).cfg (Memory.write (inData [600]).RB 9 900) 9
    ∧ ((inData [600]).IDX.toNat + 1) % (inData [600]).cfg.RING_CAP = 9 := by
  decide +kernel

/-- A DATA state with a given count. -/
def counted (n : Nat) : State := { inData [] with EC := n }

/-- The counts 111, 112 and 113 after the edge, one in each clause. -/
theorem test_hyps_EdgeCountsDataEdges :
    ∀ n ∈ [110, 111, 112], (counted n).cfg.wf = true ∧ (counted n).PR = true ∧ (counted n).FR = false
      ∧ IsDuration (counted n).cfg (counted n).LET 1400 400 ∧ ValidPulse (counted n).cfg 400
      ∧ (counted n).SF = true
      ∧ ¬ SyncWindow (counted n).cfg (Memory.write (counted n).RB 8 400) 8
      ∧ ((counted n).IDX.toNat + 1) % (counted n).cfg.RING_CAP = 8 := by
  decide +kernel

/-- A priming, a dropped, a noise and an appending edge, and an error-free one. -/
theorem test_hyps_EdgeFrame :
    (∀ s ∈ [State.reset, pending p1Bytes, B0], Memory.wf s.RB = true)
      ∧ Leads (.edge 1600) B0 (fun s => s.err = none)
      ∧ Leads (.edge 1000) B0 (fun s => s.err = some ⟨1, 0⟩) ∧ State.reset.PR = false
      ∧ (pending p1Bytes).FR = true :=
  ⟨by decide +kernel, leads (by decide +kernel), leads (by decide +kernel), by decide,
    by decide +kernel⟩

theorem test_hyps_RingReadAfterWrite :
    Memory.wf [(0, 600), (119, 900)] = true
      ∧ Memory.write [(0, 600), (119, 900)] 119 0 = [(0, 600)]
      ∧ Memory.write [(0, 600), (119, 900)] 7 300 = [(0, 600), (7, 300), (119, 900)] := by
  decide

/-- A READY state just after a command (its response still recorded), and one after an illegal word. -/
theorem test_hyps_ReadyWaitsForPoll :
    (pending p1Bytes).FR = true ∧ { pending p1Bytes with rsp := some 0x00B }.FR = true
      ∧ { pending p1Bytes with rsp := some 0x100, err := some ⟨6, 0x11⟩ }.FR = true := by
  decide +kernel

/-- P1's last duration lies in neither sync window; seven durations follow. -/
theorem test_hyps_ResumptionAfterPoll :
    CoreInv (pending p1Bytes) ∧ (pending p1Bytes).FR = true
      ∧ ¬ SampleIn (Memory.read (pending p1Bytes).RB (pending p1Bytes).IDX.toNat) 600 100
      ∧ ¬ SampleIn (Memory.read (pending p1Bytes).RB (pending p1Bytes).IDX.toNat) 900 100
      ∧ (pending p1Bytes).cfg.SYNC_HIGH = 600 ∧ (pending p1Bytes).cfg.SYNC_LOW = 900
      ∧ (pending p1Bytes).cfg.SYNC_TOL = 100 ∧ [900, 600, 900, 600, 900, 600, 900].length < 8
      ∧ ∀ d ∈ [900, 600, 900, 600, 900, 600, 900], ValidPulse (pending p1Bytes).cfg d :=
  ⟨inv_pending, by decide +kernel, by decide +kernel, by decide +kernel, rfl, rfl, rfl, by decide,
    by decide +kernel⟩

theorem test_hyps_ElementsHaveOneOwner :
    Leads .rdstat0 B0 (fun _ => True) ∧ Leads .poll (pending p1Bytes) (fun _ => True)
      ∧ Leads .poll B0 (fun _ => B0.FR = false) ∧ Leads (.edge 5) (pending p1Bytes) (fun _ => True) :=
  ⟨leads trivial, leads trivial, leads (by decide), leads trivial⟩

theorem test_hyps_LastErrOnlyObserved :
    Leads (.illegal 0x27) B0 (fun _ => Instr.illegal 0x27 ≠ .rdstat0) := leads (by decide)

theorem test_hyps_ResponsesOfCommandsOnly :
    (Instr.edge (2 ^ 32 - 1)).wf B0.cfg = true ∧ (Instr.illegal 0x27).wf B0.cfg = true
      ∧ (Instr.rdframe 6).wf B0.cfg = true := by
  decide +kernel

/-- A step with an error event, and one without. -/
theorem test_hyps_ErrorEventSetsLastErr :
    Leads (.illegal 0x27) B0 (fun s => s.err = some ⟨6, 0x27⟩)
      ∧ Leads .rdstat0 B0 (fun s => s.err = none ∧ Instr.rdstat0 ≠ .reset) :=
  ⟨leads (by decide +kernel), leads (by decide +kernel)⟩

theorem test_hyps_FrameChangesOnlyOnPollOk :
    Leads .poll (pending p1Bytes) (fun s => s.FRAME ≠ (pending p1Bytes).FRAME)
      ∧ Leads .reset { B0 with FRAME := p1Frame } (fun s => s.FRAME ≠ p1Frame) :=
  ⟨leads (by decide +kernel), leads (by decide +kernel)⟩

theorem test_hyps_OnlyResetClearsPrimedAndValid :
    Leads .poll { pending badBytes with FV := true } (fun _ =>
      (pending badBytes).PR = true ∧ Instr.poll ≠ .reset) :=
  leads (by decide +kernel)

/-- The test configuration keeps its bits off the sync windows, and P1's frame decodes, as does P2's with
the wrong checksum. -/
theorem test_hyps_ResyncAfterADecodedFrame :
    CoreInv (pending p1Bytes) ∧ CoreInv (pending badBytes) ∧ (pending p1Bytes).FR = true
      ∧ (pending badBytes).FR = true ∧ BitLowsOffSync Config.TC
      ∧ Leads .poll (pending p1Bytes) (fun s => s.rsp = some 0x001)
      ∧ Leads .poll (pending badBytes) (fun s => s.rsp = some 0x084) :=
  ⟨inv_pending, inv_of_check (by decide +kernel), by decide, by decide,
    fun d h => by simp only [SampleIn, Config.TC] at *; omega, leads (by decide +kernel),
    leads (by decide +kernel)⟩

/-- Each row's event, from a state that meets the invariants: a match and none, noise at each bound, the
counts 111 and 112, a priming and a dropped edge, RESET, POLL and another command. -/
theorem test_hyps_PhaseTransitionTable :
    CoreInv B0 ∧ CoreInv synced ∧ CoreInv almostSynced ∧ CoreInv (pending p1Bytes) ∧ CoreInv lastEdge
      ∧ Leads .reset B0 (fun s => phase s = .searching)
      ∧ Leads .poll (pending p1Bytes) (fun _ => phase (pending p1Bytes) = .ready)
      ∧ Leads .poll synced (fun _ => phase synced ≠ .ready)
      ∧ Leads .rdstat0 synced (fun _ => isCommand .rdstat0 = true ∧ Instr.rdstat0 ≠ .poll)
      ∧ Leads (.edge 5) State.reset (fun _ => State.reset.PR = false)
      ∧ (∀ d ∈ [99, 1201], IsDuration B0.cfg B0.LET (1000 + d) d ∧ ¬ ValidPulse B0.cfg d)
      ∧ (phase B0 = .searching ∧ B0.PR = true ∧ IsDuration B0.cfg B0.LET 1600 600
        ∧ ValidPulse B0.cfg 600 ∧ ¬ CompletesSync B0 600)
      ∧ (phase almostSynced = .searching ∧ IsDuration almostSynced.cfg almostSynced.LET 1900 900
        ∧ ValidPulse almostSynced.cfg 900 ∧ CompletesSync almostSynced 900)
      ∧ (phase synced = .data ∧ IsDuration synced.cfg synced.LET 1400 400
        ∧ ValidPulse synced.cfg 400 ∧ ¬ CompletesSync synced 400)
      ∧ (phase lastEdge = .data ∧ lastEdge.EC = 111 ∧ lastEdge.PR = true
        ∧ IsDuration lastEdge.cfg lastEdge.LET 1200 200 ∧ ValidPulse lastEdge.cfg 200 ∧ ¬ CompletesSync lastEdge 200) :=
  ⟨inv_B0, inv_synced, inv_almostSynced, inv_pending, inv_lastEdge, leads (by decide +kernel),
    leads (by decide +kernel), leads (by decide +kernel), leads (by decide), leads (by decide),
    by decide +kernel, by decide +kernel, by decide +kernel, by decide +kernel, by decide +kernel⟩

theorem test_hyps_ResetMeetsInvariants :
    Config.TC.wf = true ∧ ({ Config.TC with RING_CAP := 256 } : Config).wf = true := by
  decide +kernel

theorem test_hyps_StepKeepsInv :
    CoreInv (pending p1Bytes) ∧ CoreInv lastEdge
      ∧ (∃ s', step (presented (.command 0x10) (pending p1Bytes)) = .next s')
      ∧ (∃ s', step (presented (.edge 1400) lastEdge)
        = .next s') :=
  ⟨inv_pending, inv_lastEdge, step_leads (by decide +kernel), step_leads (by decide +kernel)⟩

theorem test_hyps_StepKeepsSyncPattern :
    CoreInv synced ∧ SyncHeld synced ∧ synced.SF = true
      ∧ ∃ s', step (presented (.edge 1400) synced) = .next s' :=
  ⟨inv_synced, fun _ => by decide +kernel, by decide, step_leads (by decide +kernel)⟩

/-- Just synced with no entry since, and with two; an append, a dropped edge and a command. -/
theorem test_hyps_StepCarriesTheEntries :
    CoreInv synced ∧ EntriesAre synced [] ∧ CoreInv (inData [400, 200])
      ∧ EntriesAre (inData [400, 200]) [400, 200]
      ∧ (∃ s', step (presented (.edge 1400) synced) = .next s')
      ∧ (∃ s', step (presented (.edge 1000) (inData [400, 200])) = .next s')
      ∧ (∃ s', step (presented (.command 0x31) (inData [400, 200])) = .next s') :=
  ⟨inv_synced, fun _ => by decide +kernel, inv_of_check (by decide +kernel),
    fun _ => by decide +kernel, step_leads (by decide +kernel), step_leads (by decide +kernel),
    step_leads (by decide +kernel)⟩

theorem test_hyps_StepKeepsFrameValidated :
    FrameValidated B0 ∧ FrameValidated { B0 with FRAME := p1Frame, FV := true }
      ∧ ∃ s', step (presented (.command 0x10) B0) = .next s' :=
  ⟨⟨fun _ => rfl, fun h => (by cases h)⟩, ⟨fun h => (by cases h), fun _ => by decide +kernel⟩,
    step_leads (by decide +kernel)⟩

theorem test_hyps_FrameOverrunNeverRaised :
    CoreInv lastEdge ∧ LegalLastErr { B0 with LAST_ERR := 6 }
      ∧ LegalLastErr lastEdge
      ∧ ∃ s', step (presented (.edge 1000) lastEdge)
        = .next s' :=
  ⟨inv_lastEdge, .inr (.inr (.inr (.inr rfl))), .inl rfl, step_leads (by decide +kernel)⟩

theorem test_hyps_PresentedTraceRunsInOrder : B0.cfg.wf = true ∧ B0.inputs = [] := by decide +kernel

/-- The operands at the end of their ranges; R91's `BYTE 0x8A` starts with a 1 and ends with a 0. -/
theorem test_hyps_PseudoInstructionsExpand :
    7 ≤ 7 ∧ 6 ≤ 6
      ∧ (byteDurations Config.TC 0x8A) = [400, 200, 200, 400, 200, 400, 200, 400, 400, 200, 200, 400,
        400, 200, 200, 400] := by
  decide +kernel

theorem test_hyps_NoSyncBeforeTheNinthEdge :
    Config.TC.wf = true ∧ Config.TC.SYNC_TOL < Config.TC.SYNC_HIGH ∧ (List.replicate 8 1000).length ≤ 8 := by
  decide +kernel

/-- A whole frame after the match, and no edge at all. -/
theorem test_hyps_EntriesSinceTheAnchor :
    CoreInv synced ∧ synced.PR = true ∧ synced.SF = true ∧ synced.EC = 0
      ∧ ∀ ds ∈ [[], List.replicate 112 300],
        ds.length ≤ N_DATA_EDGES ∧ ∀ d ∈ ds, ValidPulse synced.cfg d :=
  ⟨inv_synced, by decide +kernel, by decide +kernel, by decide +kernel, by decide +kernel⟩

/-- S-2's pairs, every sample at a bound. -/
def boundSync : List Nat := [500, 800, 700, 1000, 500, 1000, 700, 800]

/-- The durations of P1's frame. -/
def p1Data : List Nat := frameDurations Config.TC p1Bytes

theorem p1Data_classifies : ∀ (n : Nat) (h : n < 7) (m : Nat), m < 8 →
    classify Config.TC (p1Data.getD (2 * (8 * n + m)) 0) (p1Data.getD (2 * (8 * n + m) + 1) 0)
      = some (p1Frame[n].getLsbD (7 - m)) := by
  decide +kernel

/-- S-2's pairs, then P1's frame. -/
theorem test_hyps_PipelineDecodesAFrame :
    CoreInv B0 ∧ B0.PR = true ∧ B0.SF = false ∧ boundSync.length = 8
      ∧ (∀ d ∈ boundSync, ValidPulse B0.cfg d)
      ∧ (∀ k, k < 4 → SampleIn (boundSync.getD (2 * k) 0) B0.cfg.SYNC_HIGH B0.cfg.SYNC_TOL
        ∧ SampleIn (boundSync.getD (2 * k + 1) 0) B0.cfg.SYNC_LOW B0.cfg.SYNC_TOL)
      ∧ p1Data.length = N_DATA_EDGES ∧ (∀ d ∈ p1Data, ValidPulse B0.cfg d)
      ∧ (∀ d ∈ p1Data, ¬ SampleIn d B0.cfg.SYNC_LOW B0.cfg.SYNC_TOL)
      ∧ (∀ (n : Nat) (h : n < 7) (m : Nat), m < 8 →
        ClassifiesAs B0.cfg (p1Data.getD (2 * (8 * n + m)) 0) (p1Data.getD (2 * (8 * n + m) + 1) 0)
          (p1Frame[n].getLsbD (7 - m)))
      ∧ byteSum p1Frame % 256 = p1Frame[6].toNat :=
  ⟨inv_B0, rfl, rfl, rfl, by decide +kernel, by decide +kernel, by decide +kernel,
    by decide +kernel, by decide +kernel,
    fun n h m hm => (classify_eq_some_iff _ _ _ _).1 (p1Data_classifies n h m hm), by decide +kernel⟩

end Tests

end Sys2Proof.Machine
end

section
/-! The scope of the core (00_scope.md): an edge whose duration is valid, as one state before the checks; which
elements no step writes; the refusal of a configuration; and the statements O34, O11, O10 and O27. -/

namespace Sys2Proof.Machine

/-! ### An edge with a valid duration, up to the checks -/

/-- R105, R106: the state once the valid duration `d` of an edge at `t` is stored and counted, in the
spec's arithmetic and before the sync check and the frame-phase check. -/
def edgeStored (s : State) (t d : Nat) : State :=
  { s with
    LET := t % 2 ^ s.cfg.TS_W
    IDX := BitVec.ofNat 8 ((s.IDX.toNat + 1) % s.cfg.RING_CAP)
    RB := Memory.write s.RB ((s.IDX.toNat + 1) % s.cfg.RING_CAP) d
    EC := (s.EC + 1) % 2 ^ s.cfg.EC_W
    rsp := none, err := none }

/-- The model's append and count give it: a valid duration fits in `DUR_W` bits, so all of it is stored. -/
theorem stored_eq_edgeStored {s : State} {d : Nat} (hc : s.cfg.wf = true) (hv : ValidPulse s.cfg d)
    (t : Nat) :
    stored d { clearOutputs s with LET := lowBits s.cfg.TS_W t } = edgeStored s t d := by
  have hindex : appendIndex { clearOutputs s with LET := lowBits s.cfg.TS_W t }
      = (s.IDX.toNat + 1) % s.cfg.RING_CAP := appendIndex_eq _
  have hwhole : lowBits (clearOutputs s).cfg.DUR_W d = d := lowBits_of_valid hc hv
  unfold stored append
  rw [hindex, hwhole]
  rfl

/-- The window the sync check inspects is the one the duration completes. -/
theorem edgeStored_window_iff {s : State} (hc : s.cfg.wf = true) (t d : Nat) :
    SyncWindow (edgeStored s t d).cfg (edgeStored s t d).RB (edgeStored s t d).IDX.toNat
      ↔ CompletesSync s d := by
  have hindex : (edgeStored s t d).IDX.toNat = (s.IDX.toNat + 1) % s.cfg.RING_CAP := by
    rw [← appendIndex_eq, ← appendIndex_toNat hc, appendIndex_eq]
    rfl
  rw [hindex]
  exact Iff.rfl

/-- R100: with `PR = 1` and `FR = 0` a valid duration is stored and counted, then checked. -/
theorem exec_edge_valid {s : State} {t d : Nat} (hc : s.cfg.wf = true) (hp : s.PR = true)
    (hf : s.FR = false) (hd : IsDuration s.cfg s.LET t d) (hv : ValidPulse s.cfg d) :
    exec (.edge t) s = .next (phaseCheck (syncCheck (edgeStored s t d))) := by
  rw [exec_eq, execState_edge_ingest hp hf hd hv, ingest_eq, stored_eq_edgeStored hc hv]

theorem syncCheck_of_not_window {s : State} (h : ¬ SyncWindow s.cfg s.RB s.IDX.toNat) :
    syncCheck s = s := by
  rcases syncCheck_cases s with ⟨hw, -⟩ | ⟨-, he⟩
  · exact absurd hw h
  · exact he

/-- R151 to R153: the frame-phase check while synced, by the count. -/
theorem phaseCheck_of_synced {s : State} (h : s.SF = true) :
    phaseCheck s =
      if s.EC < N_DATA_EDGES then s
      else if s.EC = N_DATA_EDGES then { s with FR := true }
      else raiseError (.frameOverrun 0) (captureReset s) := by
  rcases phaseCheck_cases s with ⟨hsf, -⟩ | ⟨-, hlt, he⟩ | ⟨-, heq, he⟩ | ⟨-, hgt, he⟩
  · rw [h] at hsf; cases hsf
  · rw [he, if_pos hlt]
  · rw [he, if_neg heq.not_lt, if_pos heq]
  · rw [he, if_neg hgt.not_gt, if_neg hgt.ne']

/-- Settles O34: without a match the sync check writes nothing, and the frame-phase check sees the state
with the duration stored and counted. -/
theorem edgeCountsDataEdges : Obligations.EdgeCountsDataEdges := by
  intro s t d hc hp hf hd hv hs hw
  have hnone : syncCheck (edgeStored s t d) = edgeStored s t d :=
    syncCheck_of_not_window (mt (edgeStored_window_iff hc t d).1 hw)
  have hsynced : (edgeStored s t d).SF = true := hs
  rw [exec_edge_valid hc hp hf hd hv, hnone, phaseCheck_of_synced hsynced]
  rfl

/-! ### The configuration -/

@[simp] theorem ingest_cfg (d : Micros) (s : State) : (ingest d s).cfg = s.cfg := by
  simp [ingest]

@[simp] theorem edgeStep_cfg (t : Nat) (s : State) : (edgeStep t s).cfg = s.cfg := by
  rcases edgeStep_cases t s with ⟨-, h⟩ | ⟨-, -, h⟩ | ⟨-, -, -, h⟩ | ⟨-, -, -, h⟩
  all_goals simp [h]

@[simp] theorem pollStep_cfg (s : State) : (pollStep s).cfg = s.cfg := by
  rcases pollStep_cases s with ⟨-, h⟩ | ⟨-, _, h⟩ | ⟨-, _, -, h⟩ | ⟨-, _, -, h⟩
  all_goals rw [h]; rfl

/-- R62: no instruction writes the configuration. -/
@[simp] theorem execState_cfg (i : Instr) (s : State) : (execState i s).cfg = s.cfg := by
  cases i with
  | edge t => simp [execState]
  | poll => simp [execState]
  | rdframe n => unfold execState; dsimp only; split <;> rfl
  | _ => rfl

/-- Settles O11: taking a transaction from its port and performing it both keep the configuration. -/
theorem configurationNeverChanges : Obligations.ConfigurationNeverChanges := by
  intro s s' h
  obtain ⟨ins, n, hidle | ⟨x, hexec⟩⟩ := step_cases (wf_of_step h)
  · rw [hidle] at h
    cases h
    rfl
  · rw [hexec, exec_next_iff] at h
    rw [h, execState_cfg]

theorem step_of_not_wf {s : State} (h : ¬ s.cfg.wf = true) : step s = .refused .illFormedConfig :=
  if_neg h

/-- Settles O10: the check that `step` makes first is the conjunction of R8's constraints. -/
theorem illFormedConfigurationRefused : Obligations.IllFormedConfigurationRefused :=
  fun s h => step_of_not_wf (mt (Config.wf_iff s.cfg).1 h)

/-! ### Tolerance -/

/-- Settles O27: the predicate is the pair of inequalities in ℤ (R13), where each clause is linear. -/
theorem toleranceBoundary : Obligations.ToleranceBoundary := by
  intro d ref tol
  rw [within_eq_false_iff, within_iff, SampleIn]
  refine ⟨?upperBound, ?lowerBound, ?aboveUpper, ?belowLower, Iff.rfl⟩
  all_goals omega

end Sys2Proof.Machine
end

section
/-! The state and its owners (10_state.md): what each instruction and each step can do to the elements of R20;
the invariants of R37 along a step and along a run of pulses; and the statements O40, O45, O51, O43, O41, O13, O16,
O20, O47, O48, O49, O50 and O57. -/

namespace Sys2Proof.Machine

/-! ### What an instruction and a step can do -/

/-- What an instruction does: EDGE, RESET, POLL, or a command that only answers, legal or not. -/
theorem execState_cases (i : Instr) (s : State) :
    (∃ t, i = .edge t ∧ execState i s = edgeStep (lowBits s.cfg.TS_W t) (clearOutputs s))
      ∨ (i = .reset ∧ execState i s = resetCore s)
      ∨ (i = .poll ∧ execState i s = pollStep (clearOutputs s))
      ∨ (isCommand i = true ∧ i ≠ .poll
        ∧ ((∃ data, execState i s = answer data s) ∨ ∃ w, execState i s = illegalCommand w s)) := by
  cases i with
  | edge t => exact .inl ⟨t, rfl, rfl⟩
  | reset => exact .inr (.inl ⟨rfl, rfl⟩)
  | poll => exact .inr (.inr (.inl ⟨rfl, rfl⟩))
  | rdframe n =>
    refine .inr (.inr (.inr ⟨rfl, by simp, ?_⟩))
    unfold execState
    dsimp only
    split
    · exact .inl ⟨_, rfl⟩
    · exact .inr ⟨_, rfl⟩
  | illegal w => exact .inr (.inr (.inr ⟨rfl, by simp, .inr ⟨w, rfl⟩⟩))
  | _ => exact .inr (.inr (.inr ⟨rfl, by simp, .inl ⟨_, rfl⟩⟩))

/-- A step that answers a next state is idle or performs one instruction, on the state with the transaction
taken from its port. -/
theorem step_next_cases {s s' : State} (h : step s = .next s') :
    ∃ (ins : List Presentation) (n : Nat),
      s' = clearOutputs { s with inputs := ins, draws := n }
        ∨ ∃ i, s' = execState i { s with inputs := ins, draws := n } := by
  obtain ⟨ins, n, hidle | ⟨x, hexec⟩⟩ := step_cases (wf_of_step h)
  · rw [hidle] at h
    cases h
    exact ⟨ins, n, .inl rfl⟩
  · rw [hexec, exec_next_iff] at h
    exact ⟨ins, n, .inr ⟨_, h⟩⟩

/-! ### Who writes what: the producer's and the consumer's elements -/

@[simp] theorem ingest_LET (d : Micros) (s : State) : (ingest d s).LET = s.LET := by simp [ingest]

@[simp] theorem ingest_PR (d : Micros) (s : State) : (ingest d s).PR = s.PR := by simp [ingest]

@[simp] theorem ingest_FRAME (d : Micros) (s : State) : (ingest d s).FRAME = s.FRAME := by
  simp [ingest]

@[simp] theorem ingest_FV (d : Micros) (s : State) : (ingest d s).FV = s.FV := by simp [ingest]

@[simp] theorem edgeStep_PR (t : Nat) (s : State) : (edgeStep t s).PR = true := by
  rcases edgeStep_cases t s with ⟨hp, h⟩ | ⟨hp, -, h⟩ | ⟨hp, -, -, h⟩ | ⟨hp, -, -, h⟩
  all_goals simp [h, hp]

@[simp] theorem edgeStep_FRAME (t : Nat) (s : State) : (edgeStep t s).FRAME = s.FRAME := by
  rcases edgeStep_cases t s with ⟨-, h⟩ | ⟨-, -, h⟩ | ⟨-, -, -, h⟩ | ⟨-, -, -, h⟩
  all_goals simp [h]

@[simp] theorem edgeStep_FV (t : Nat) (s : State) : (edgeStep t s).FV = s.FV := by
  rcases edgeStep_cases t s with ⟨-, h⟩ | ⟨-, -, h⟩ | ⟨-, -, -, h⟩ | ⟨-, -, -, h⟩
  all_goals simp [h]

/-- R103: an edge while a frame is pending leaves the capture. -/
theorem edgeStep_capture_of_ready {s : State} (hf : s.FR = true) (t : Nat) :
    (edgeStep t s).EC = s.EC ∧ (edgeStep t s).SF = s.SF ∧ (edgeStep t s).ANCHOR = s.ANCHOR
      ∧ (edgeStep t s).FR = s.FR := by
  rcases Bool.eq_false_or_eq_true s.PR with hp | hp
  · rw [edgeStep_drop hp hf]; exact ⟨rfl, rfl, rfl, rfl⟩
  · rw [edgeStep_prime hp]; exact ⟨rfl, rfl, rfl, rfl⟩

theorem pollStep_producer (s : State) :
    (pollStep s).LET = s.LET ∧ (pollStep s).PR = s.PR ∧ (pollStep s).RB = s.RB
      ∧ (pollStep s).IDX = s.IDX := by
  rcases pollStep_cases s with ⟨-, h⟩ | ⟨-, _, h⟩ | ⟨-, _, -, h⟩ | ⟨-, _, -, h⟩
  all_goals rw [h]; exact ⟨rfl, rfl, rfl, rfl⟩

theorem pollStep_of_not_ready {s : State} (hf : s.FR = false) : pollStep s = respond false 0x00 s := by
  rcases pollStep_cases s with ⟨-, h⟩ | ⟨hr, -⟩ | ⟨hr, -⟩ | ⟨hr, -⟩
  · exact h
  all_goals rw [hf] at hr; cases hr

/-- R36: no command writes a producer element. -/
theorem execState_producer_of_command {i : Instr} (he : ∀ t, i ≠ .edge t) (hr : i ≠ .reset)
    (s : State) :
    (execState i s).LET = s.LET ∧ (execState i s).PR = s.PR ∧ (execState i s).RB = s.RB
      ∧ (execState i s).IDX = s.IDX := by
  rcases execState_cases i s with ⟨t, hi, -⟩ | ⟨hi, -⟩ | ⟨-, h⟩ | ⟨-, -, ⟨_, h⟩ | ⟨_, h⟩⟩
  · exact absurd hi (he t)
  · exact absurd hi hr
  · rw [h]; exact pollStep_producer (clearOutputs s)
  all_goals rw [h]; exact ⟨rfl, rfl, rfl, rfl⟩

/-- What an instruction does to `FRAME` and `FV`: nothing, but for RESET and a POLL that validates a frame. -/
theorem execState_frame_cases (i : Instr) (s : State) :
    ((execState i s).FRAME = s.FRAME ∧ (execState i s).FV = s.FV)
      ∨ (i = .reset ∧ execState i s = resetCore s)
      ∨ (i = .poll ∧ ∃ f : Vector Byte 7, checksum f = f[6] ∧ (execState i s).FRAME = f
        ∧ (execState i s).FV = true) := by
  rcases execState_cases i s with ⟨t, -, h⟩ | hreset | ⟨hi, h⟩ | ⟨-, -, ⟨_, h⟩ | ⟨_, h⟩⟩
  · exact .inl (by simp [h])
  · exact .inr (.inl hreset)
  · rcases pollStep_cases (clearOutputs s) with ⟨-, hp⟩ | ⟨-, _, hp⟩ | ⟨-, _, -, hp⟩ | ⟨-, f, hc, hp⟩
    · exact .inl (by rw [h, hp]; exact ⟨rfl, rfl⟩)
    · exact .inl (by rw [h, hp]; exact ⟨rfl, rfl⟩)
    · exact .inl (by rw [h, hp]; exact ⟨rfl, rfl⟩)
    · exact .inr (.inr ⟨hi, f, hc, by rw [h, hp]; rfl, by rw [h, hp]; rfl⟩)
  all_goals exact .inl (by rw [h]; exact ⟨rfl, rfl⟩)

/-- R36: a command writes the capture only if it is POLL and a frame is pending. -/
theorem execState_capture_of_command {i : Instr} {s : State} (hc : isCommand i = true)
    (h : i ≠ .poll ∨ s.FR = false) :
    (execState i s).EC = s.EC ∧ (execState i s).SF = s.SF ∧ (execState i s).ANCHOR = s.ANCHOR
      ∧ (execState i s).FR = s.FR := by
  rcases execState_cases i s with ⟨t, rfl, -⟩ | ⟨rfl, -⟩ | ⟨rfl, he⟩ | ⟨-, -, ⟨_, he⟩ | ⟨_, he⟩⟩
  · cases hc
  · cases hc
  · have hf : s.FR = false := h.resolve_left (by simp)
    rw [he, pollStep_of_not_ready (s := clearOutputs s) hf]
    exact ⟨rfl, rfl, rfl, rfl⟩
  all_goals rw [he]; exact ⟨rfl, rfl, rfl, rfl⟩

/-- Settles O40, a clause from each of the ownership lemmas above. -/
theorem elementsHaveOneOwner : Obligations.ElementsHaveOneOwner := by
  intro i s s' h
  rw [exec_next_iff] at h
  subst h
  refine ⟨fun he hr => execState_producer_of_command he hr s, fun hp hr => ?frame, ?edge,
    execState_capture_of_command⟩
  case frame =>
    rcases execState_frame_cases i s with hkept | ⟨hi, -⟩ | ⟨hi, -⟩
    · exact hkept
    · exact absurd hi hr
    · exact absurd hi hp
  case edge =>
    rintro ⟨t, rfl⟩ hf
    exact edgeStep_capture_of_ready (s := clearOutputs s) hf _

/-- Settles O45: EDGE sets `PR` and the commands keep it; POLL sets `FV` or keeps it. -/
theorem onlyResetClearsPrimedAndValid : Obligations.OnlyResetClearsPrimedAndValid := by
  intro i s s' h hr
  rw [exec_next_iff] at h
  subst h
  constructor
  · intro hp
    by_cases he : ∃ t, i = .edge t
    · obtain ⟨t, rfl⟩ := he
      exact edgeStep_PR _ _
    · obtain ⟨-, hPR, -⟩ := execState_producer_of_command (not_exists.1 he) hr s
      rw [hPR, hp]
  · intro hv
    rcases execState_frame_cases i s with ⟨-, hFV⟩ | ⟨hi, -⟩ | ⟨-, f, -, -, hFV⟩
    · rw [hFV, hv]
    · exact absurd hi hr
    · exact hFV

/-- R31, R32: every instruction keeps a validated frame, or the zero frame before any. -/
theorem FrameValidated.execState {s : State} (h : FrameValidated s) (i : Instr) :
    FrameValidated (execState i s) := by
  rcases execState_frame_cases i s with ⟨hFRAME, hFV⟩ | ⟨-, he⟩ | ⟨-, f, hc, hFRAME, hFV⟩
  · unfold FrameValidated
    rw [hFRAME, hFV]
    exact h
  · rw [he]
    exact ⟨fun _ => rfl, nofun⟩
  · unfold FrameValidated
    rw [hFRAME, hFV]
    exact ⟨nofun, fun _ => (checksum_eq_iff f f[6]).1 hc⟩

/-- Settles O51, by the instruction that the step performs. -/
theorem stepKeepsFrameValidated : Obligations.StepKeepsFrameValidated := by
  intro s s' h hstep
  obtain ⟨ins, n, rfl | ⟨i, rfl⟩⟩ := step_next_cases hstep
  · exact h
  · exact FrameValidated.execState (s := { s with inputs := ins, draws := n }) h i

/-! ### Error events and `LAST_ERR` -/

/-- A step's report: no error event and `LAST_ERR` as before, or the event of an error kind with its code in
`LAST_ERR` (R33, R211). -/
def Reports (s s' : State) : Prop :=
  (s'.err = none ∧ s'.LAST_ERR = s.LAST_ERR)
    ∨ ∃ e : CoreError, s'.err = some ⟨e.code, e.info⟩ ∧ s'.LAST_ERR = e.code

theorem ingest_reports {s : State} (h : s.err = none) (d : Micros) : Reports s (ingest d s) := by
  rcases ingest_cases d s with ⟨-, he⟩ | ⟨-, ⟨-, he⟩ | ⟨-, -, he⟩ | ⟨-, -, he⟩ | ⟨-, -, he⟩⟩
  case inr.inr.inr.inr => exact .inr ⟨.frameOverrun 0, by rw [he]; exact ⟨rfl, rfl⟩⟩
  all_goals exact .inl (by rw [he]; exact ⟨h, rfl⟩)

theorem edgeStep_reports {s : State} (h : s.err = none) (t : Nat) : Reports s (edgeStep t s) := by
  rcases edgeStep_cases t s with ⟨-, he⟩ | ⟨-, -, he⟩ | ⟨-, -, -, he⟩ | ⟨-, -, -, he⟩
  · exact .inl (by rw [he]; exact ⟨h, rfl⟩)
  · exact .inl (by rw [he]; exact ⟨h, rfl⟩)
  · exact .inr ⟨.pulseTiming _, by rw [he]; exact ⟨rfl, rfl⟩⟩
  · rw [he]
    exact ingest_reports (s := { s with LET := t }) h _

theorem pollStep_reports {s : State} (h : s.err = none) : Reports s (pollStep s) := by
  rcases pollStep_cases s with ⟨-, he⟩ | ⟨-, j, he⟩ | ⟨-, f, -, he⟩ | ⟨-, f, -, he⟩
  · exact .inl (by rw [he]; exact ⟨h, rfl⟩)
  · exact .inr ⟨.bitDecode j, by rw [he]; exact ⟨rfl, rfl⟩⟩
  · exact .inr ⟨.checksum (checksum f) f[6], by rw [he]; exact ⟨rfl, rfl⟩⟩
  · exact .inl (by rw [he]; exact ⟨h, rfl⟩)

/-- R211: every instruction but RESET reports. -/
theorem execState_reports {i : Instr} (hr : i ≠ .reset) (s : State) : Reports s (execState i s) := by
  rcases execState_cases i s with ⟨t, -, h⟩ | ⟨hi, -⟩ | ⟨-, h⟩ | ⟨-, -, ⟨_, h⟩ | ⟨w, h⟩⟩
  · rw [h]; exact edgeStep_reports (s := clearOutputs s) rfl _
  · exact absurd hi hr
  · rw [h]; exact pollStep_reports (s := clearOutputs s) rfl
  · exact .inl (by rw [h]; exact ⟨rfl, rfl⟩)
  · exact .inr ⟨.illegalCommand w, by rw [h]; exact ⟨rfl, rfl⟩⟩

/-- Settles O43: RESET emits no event, and every other instruction reports. -/
theorem errorEventSetsLastErr : Obligations.ErrorEventSetsLastErr := by
  intro i s s' h
  rw [exec_next_iff] at h
  subst h
  by_cases hr : i = .reset
  · subst hr
    exact ⟨nofun, fun _ hne => absurd rfl hne⟩
  · rcases execState_reports hr s with ⟨herr, hlast⟩ | ⟨k, herr, hlast⟩
    · rw [herr]
      exact ⟨nofun, fun _ _ => hlast⟩
    · rw [herr]
      exact ⟨fun e he => Option.some.inj he ▸ hlast, nofun⟩

/-! ### `LAST_ERR` is read by no rule -/

/-- `v` is `u` but for `LAST_ERR`, which is `e` or `u`'s own. -/
def DiffersInLastErr (e : ErrorCode) (u v : State) : Prop :=
  ∃ e', v = { u with LAST_ERR := e' } ∧ (e' = e ∨ e' = u.LAST_ERR)

theorem DiffersInLastErr.of_kept {e : ErrorCode} {u v : State} (h : v = { u with LAST_ERR := e }) :
    DiffersInLastErr e u v := ⟨e, h, .inl rfl⟩

theorem DiffersInLastErr.of_eq {e : ErrorCode} {u v : State} (h : v = u) : DiffersInLastErr e u v :=
  ⟨u.LAST_ERR, h, .inr rfl⟩

theorem syncCheck_with_lastErr (s : State) (e : ErrorCode) :
    syncCheck { s with LAST_ERR := e } = { syncCheck s with LAST_ERR := e } := by
  unfold syncCheck
  simp only []
  split <;> rfl

theorem phaseCheck_with_lastErr (s : State) (e : ErrorCode) :
    DiffersInLastErr e (phaseCheck s) (phaseCheck { s with LAST_ERR := e }) := by
  unfold phaseCheck
  simp only []
  split
  · split
    · exact .of_kept rfl
    · split
      · exact .of_eq rfl
      · exact .of_kept rfl
  · exact .of_kept rfl

theorem ingest_with_lastErr (d : Micros) (s : State) (e : ErrorCode) :
    DiffersInLastErr e (ingest d s) (ingest d { s with LAST_ERR := e }) := by
  have hsync : syncCheck (stored d { s with LAST_ERR := e })
      = { syncCheck (stored d s) with LAST_ERR := e } := syncCheck_with_lastErr (stored d s) e
  rw [ingest_eq, ingest_eq, hsync]
  exact phaseCheck_with_lastErr _ e

theorem edgeStep_with_lastErr (t : Nat) (s : State) (e : ErrorCode) :
    DiffersInLastErr e (edgeStep t s) (edgeStep t { s with LAST_ERR := e }) := by
  rcases Bool.eq_false_or_eq_true s.PR with hp | hp
  · rcases Bool.eq_false_or_eq_true s.FR with hf | hf
    · rw [edgeStep_drop hp hf, edgeStep_drop (s := { s with LAST_ERR := e }) hp hf]
      exact .of_kept rfl
    · rcases Bool.eq_false_or_eq_true (isNoise s.cfg (duration s.cfg t s.LET)) with hn | hn
      · rw [edgeStep_noise hp hf hn, edgeStep_noise (s := { s with LAST_ERR := e }) hp hf hn]
        exact .of_eq rfl
      · rw [edgeStep_ingest hp hf hn, edgeStep_ingest (s := { s with LAST_ERR := e }) hp hf hn]
        exact ingest_with_lastErr _ { s with LET := t } e
  · rw [edgeStep_prime hp, edgeStep_prime (s := { s with LAST_ERR := e }) hp]
    exact .of_kept rfl

theorem validateFrame_with_lastErr (f : Vector Byte 7) (s : State) (e : ErrorCode) :
    DiffersInLastErr e (validateFrame f s) (validateFrame f { s with LAST_ERR := e }) := by
  unfold validateFrame
  split
  · exact .of_eq rfl
  · exact .of_kept rfl

theorem pollStep_with_lastErr (s : State) (e : ErrorCode) :
    DiffersInLastErr e (pollStep s) (pollStep { s with LAST_ERR := e }) := by
  unfold pollStep
  simp only []
  split
  · exact .of_kept rfl
  · split
    · exact .of_eq rfl
    · exact validateFrame_with_lastErr _ s e

/-- R36: no meaning but that of `RDSTAT 0` reads `LAST_ERR`. -/
theorem execState_with_lastErr {i : Instr} (hi : i ≠ .rdstat0) (s : State) (e : ErrorCode) :
    DiffersInLastErr e (execState i s) (execState i { s with LAST_ERR := e }) := by
  cases i with
  | rdstat0 => exact absurd rfl hi
  | edge t => exact edgeStep_with_lastErr _ (clearOutputs s) e
  | poll => exact pollStep_with_lastErr (clearOutputs s) e
  | reset => exact .of_eq rfl
  | illegal w => exact .of_eq rfl
  | rdframe n =>
    unfold execState
    dsimp only
    split
    · exact .of_kept rfl
    · exact .of_eq rfl
  | _ => exact .of_kept rfl

/-- Settles O41: the two runs differ in `LAST_ERR` alone, and `exec` is `execState`. -/
theorem lastErrOnlyObserved : Obligations.LastErrOnlyObserved := by
  intro i s s' e hi h
  rw [exec_next_iff] at h
  subst h
  obtain ⟨e', he, hor⟩ := execState_with_lastErr hi s e
  exact ⟨e', by rw [exec_eq, he], hor⟩

/-! ### Reset, STATUS and the hidden elements -/

/-- Settles O13: each element of the reset state is a literal, and the frame a replicated one. -/
theorem powerOnState : Obligations.PowerOnState := by
  have hframe : ∀ n (h : n < 7), State.reset.FRAME[n] = 0 := fun n h => Vector.getElem_replicate h
  exact ⟨rfl, rfl, fun _ => rfl, rfl, rfl, rfl, rfl, rfl, hframe, rfl, rfl⟩

/-- R34: the flags in bits 0 to 3 of `STATUS`, and bit 7. -/
theorem statusView_flags (s : State) :
    (statusView s).getLsbD 0 = s.SF ∧ (statusView s).getLsbD 1 = s.FR
      ∧ (statusView s).getLsbD 2 = s.FV ∧ (statusView s).getLsbD 3 = s.PR
      ∧ (statusView s).getLsbD 7 = false := by
  unfold statusView
  simp only [BitVec.getLsbD_append]
  simp

/-- R34: `LAST_ERR` in bits 6:4 of `STATUS`. -/
theorem statusView_lastErr (s : State) : (statusView s).extractLsb' 4 3 = s.LAST_ERR := by
  ext i hi
  rw [BitVec.getElem_extractLsb']
  unfold statusView
  interval_cases i
  all_goals
    simp only [BitVec.getLsbD_append]
    simp [BitVec.getLsbD_eq_getElem]

/-- Settles O16: `RDSTAT 0` answers the view, whose bits are R34's. -/
theorem statusLayout : Obligations.StatusLayout := by
  refine ⟨fun s => ⟨statusView s, rfl, ?_⟩, by decide⟩
  obtain ⟨hSF, hFR, hFV, hPR, htop⟩ := statusView_flags s
  exact ⟨hSF, hFR, hFV, hPR, statusView_lastErr s, htop⟩

/-- Settles O20: the data of a read is computed from the elements shown, and its step keeps the hidden ones. -/
theorem readsDoNotSeeHiddenState : Obligations.ReadsDoNotSeeHiddenState := by
  intro i s s' prev rb hc hp h
  rw [exec_next_iff] at h ⊢
  subst h
  cases i with
  | edge t => cases hc
  | reset => cases hc
  | poll => exact absurd rfl hp
  | rdframe n => unfold execState; dsimp only; split <;> rfl
  | _ => rfl

/-! ### What a step can do to the ring and the capture -/

/-- The configuration, the ring and its index stay; `LET` keeps its width. -/
structure KeepsRing (s s' : State) : Prop where
  cfg : s'.cfg = s.cfg
  LET_width : s'.LET < 2 ^ s.cfg.TS_W
  RB : s'.RB = s.RB
  IDX : s'.IDX = s.IDX

/-- R105: the valid duration `d`, from the last edge to this one, is stored at the next index. -/
structure Stores (s s' : State) (d : Micros) : Prop where
  cfg : s'.cfg = s.cfg
  LET_width : s'.LET < 2 ^ s.cfg.TS_W
  duration : IsDuration s.cfg s.LET s'.LET d
  valid : ValidPulse s.cfg d
  IDX : s'.IDX.toNat = (s.IDX.toNat + 1) % s.cfg.RING_CAP
  ring_wf : Memory.wf s'.RB = true
  read : ∀ i, Memory.read s'.RB i = if s'.IDX.toNat = i then d else Memory.read s.RB i

/-- What an edge that stores `d` does to the capture, from a state that meets the invariants: a match anchors; without
one a searching core stays searching and a synced one counts the edge (R110). -/
inductive PulseChange (s s' : State) (d : Micros) : Prop
  | anchored (stores : Stores s s' d) (window : SyncWindow s'.cfg s'.RB s'.IDX.toNat)
      (SF : s'.SF = true) (EC : s'.EC = 0) (ANCHOR : s'.ANCHOR = s'.IDX) (FR : s'.FR = false)
  | searching (stores : Stores s s' d) (before : s.SF = false)
      (SF : s'.SF = false) (EC : s'.EC < 2 ^ s.cfg.EC_W) (ANCHOR : s'.ANCHOR = s.ANCHOR)
      (FR : s'.FR = false)
  | counted (stores : Stores s s' d) (before : s.SF = true) (room : s.EC < N_DATA_EDGES)
      (SF : s'.SF = true) (EC : s'.EC = s.EC + 1) (ANCHOR : s'.ANCHOR = s.ANCHOR)
      (FR : s'.FR = true ↔ s'.EC = N_DATA_EDGES)

/-- What an instruction does to the ring and the capture, from a state that meets the invariants. -/
inductive CaptureChange (s s' : State) : Prop
  | kept (ring : KeepsRing s s') (EC : s'.EC = s.EC) (SF : s'.SF = s.SF)
      (ANCHOR : s'.ANCHOR = s.ANCHOR) (FR : s'.FR = s.FR)
  | captureReset (ring : KeepsRing s s') (EC : s'.EC = 0) (SF : s'.SF = false)
      (ANCHOR : s'.ANCHOR = 0) (FR : s'.FR = false)
  | reset (h : s' = resetCore s)
  | pulse (d : Micros) (h : PulseChange s s' d)

theorem ingest_stores {s : State} (h : CoreInv s) {t d : Nat} (ht : t < 2 ^ s.cfg.TS_W)
    (hd : IsDuration s.cfg s.LET t d) (hv : ValidPulse s.cfg d) :
    Stores s (ingest d { clearOutputs s with LET := t }) d := by
  obtain ⟨hIDX, -, hwf, hread⟩ := h.stored_ring hv
  have eIDX : (ingest d { clearOutputs s with LET := t }).IDX = (stored d s).IDX := by
    simp [ingest, stored, appendIndex]
  have eRB : (ingest d { clearOutputs s with LET := t }).RB = (stored d s).RB := by
    simp [ingest, stored, appendIndex]
  constructor
  case cfg => simp
  case LET_width => simpa using ht
  case duration => simpa using hd
  case valid => exact hv
  case IDX => rw [eIDX, hIDX]
  case ring_wf => rw [eRB, hwf]
  case read => rw [eIDX, eRB]; exact hread

/-- R105 to R107, R150 to R153: an edge that stores, with no frame pending. The count cannot exceed a frame. -/
theorem ingest_pulseChange {s : State} (h : CoreInv s) (hf : s.FR = false) {t d : Nat}
    (ht : t < 2 ^ s.cfg.TS_W) (hd : IsDuration s.cfg s.LET t d) (hv : ValidPulse s.cfg d) :
    PulseChange s (ingest d { clearOutputs s with LET := t }) d := by
  have hst := ingest_stores h ht hd hv
  have hcount : s.SF = true →
      (stored d { clearOutputs s with LET := t }).EC = s.EC + 1 ∧ s.EC < N_DATA_EDGES :=
    fun hs => h.count_room hf hs
  rcases ingest_cases d { clearOutputs s with LET := t } with
    ⟨hw, he⟩ | ⟨-, ⟨hs, he⟩ | ⟨hs, hlt, he⟩ | ⟨hs, heq, he⟩ | ⟨hs, hgt, he⟩⟩
  all_goals rw [he] at hst ⊢
  · exact .anchored hst hw rfl rfl rfl hf
  · exact .searching hst hs hs (addMod_lt _ _ _) rfl hf
  · obtain ⟨hEC, hroom⟩ := hcount hs
    refine .counted hst hs hroom hs hEC rfl ⟨fun hx => ?_, fun hx => absurd hx hlt.ne⟩
    cases hf.symm.trans hx
  · obtain ⟨hEC, hroom⟩ := hcount hs
    exact .counted hst hs hroom hs hEC rfl ⟨fun _ => heq, fun _ => rfl⟩
  · obtain ⟨hEC, hroom⟩ := hcount hs
    omega

theorem edgeStep_captureChange {s : State} (h : CoreInv s) (t : Nat) :
    CaptureChange s (edgeStep (lowBits s.cfg.TS_W t) (clearOutputs s)) := by
  have ht : lowBits s.cfg.TS_W t < 2 ^ s.cfg.TS_W := lowBits_lt _ _
  rcases edgeStep_cases (lowBits s.cfg.TS_W t) (clearOutputs s) with
    ⟨-, he⟩ | ⟨-, -, he⟩ | ⟨-, -, -, he⟩ | ⟨-, hf, hv, he⟩
  all_goals rw [he]
  · exact .kept ⟨rfl, ht, rfl, rfl⟩ rfl rfl rfl rfl
  · exact .kept ⟨rfl, ht, rfl, rfl⟩ rfl rfl rfl rfl
  · exact .captureReset ⟨rfl, ht, rfl, rfl⟩ rfl rfl rfl rfl
  · exact .pulse _ (ingest_pulseChange h hf ht ⟨subMod_lt _ _ _, add_subMod _ _ _⟩ hv)

theorem pollStep_captureChange {s : State} (h : CoreInv s) :
    CaptureChange s (pollStep (clearOutputs s)) := by
  rcases pollStep_cases (clearOutputs s) with ⟨-, he⟩ | ⟨-, _, he⟩ | ⟨-, _, -, he⟩ | ⟨-, _, -, he⟩
  all_goals rw [he]
  · exact .kept ⟨rfl, h.LET_width, rfl, rfl⟩ rfl rfl rfl rfl
  all_goals exact .captureReset ⟨rfl, h.LET_width, rfl, rfl⟩ rfl rfl rfl rfl

theorem execState_captureChange {s : State} (h : CoreInv s) (i : Instr) :
    CaptureChange s (execState i s) := by
  rcases execState_cases i s with ⟨t, -, he⟩ | ⟨-, he⟩ | ⟨-, he⟩ | ⟨-, -, ⟨_, he⟩ | ⟨_, he⟩⟩
  all_goals rw [he]
  · exact edgeStep_captureChange h t
  · exact .reset rfl
  · exact pollStep_captureChange h
  all_goals exact .kept ⟨rfl, h.LET_width, rfl, rfl⟩ rfl rfl rfl rfl

/-- Taking a transaction from its port keeps the invariants. -/
theorem CoreInv.with_ports {s : State} (h : CoreInv s) (ins : List Presentation) (n : Nat) :
    CoreInv { s with inputs := ins, draws := n } :=
  h.same rfl h.LET_width rfl rfl rfl rfl rfl rfl

/-- What a step does to the ring and the capture: an instruction's change, once its transaction is taken. -/
theorem step_captureChange {s s' : State} (h : CoreInv s) (hstep : step s = .next s') :
    ∃ (ins : List Presentation) (n : Nat),
      CaptureChange { s with inputs := ins, draws := n } s' := by
  obtain ⟨ins, n, rfl | ⟨i, rfl⟩⟩ := step_next_cases hstep
  · exact ⟨ins, n, .kept ⟨rfl, h.LET_width, rfl, rfl⟩ rfl rfl rfl rfl⟩
  · exact ⟨ins, n, execState_captureChange (h.with_ports ins n) i⟩

/-! ### The invariants (I1) to (I5), (I7) and the index of the count -/

/-- The reset state meets the invariants: nothing is captured and every entry reads 0. -/
theorem coreInv_resetWith {c : Config} (hc : c.wf = true) : CoreInv (State.resetWith c) := by
  have hidx : (State.resetWith c).IDX.toNat < c.RING_CAP := by
    have := (Config.wf_iff c).1 hc
    show (c.RING_CAP - 1) % 2 ^ 8 < c.RING_CAP
    omega
  constructor
  case cfg_wf => exact hc
  case LET_width => exact Nat.two_pow_pos _
  case EC_width => exact Nat.two_pow_pos _
  case IDX_in_ring => exact hidx
  case ANCHOR_in_ring => exact Nat.zero_lt_of_lt hidx
  case ready_iff => simp [State.resetWith]
  case searching_anchor => exact fun _ => rfl
  case ring_wf => exact Memory.wf_nil
  case ring_indices => exact fun _ _ => rfl
  case ring_values => exact fun _ => .inl rfl
  all_goals exact nofun

theorem CoreInv.resetCore {s : State} (h : CoreInv s) : CoreInv (resetCore s) :=
  (coreInv_resetWith h.cfg_wf).same rfl (Nat.two_pow_pos _) rfl rfl rfl rfl rfl rfl

/-- Settles O47: with `SF = 0`, `FV = 0` and `LAST_ERR = 0` the other three are at their first cases. -/
theorem resetMeetsInvariants : Obligations.ResetMeetsInvariants :=
  fun _ hc => ⟨coreInv_resetWith hc, nofun, ⟨fun _ => rfl, nofun⟩, .inl rfl⟩

/-- A stored duration keeps what the invariants say of the ring; what they say of the capture is left to show. -/
theorem CoreInv.of_stores {s s' : State} {d : Micros} (h : CoreInv s) (st : Stores s s' d)
    (EC_width : s'.EC < 2 ^ s.cfg.EC_W) (ANCHOR_in_ring : s'.ANCHOR.toNat < s.cfg.RING_CAP)
    (synced_count : s'.SF = true → s'.EC ≤ N_DATA_EDGES)
    (ready_iff : s'.FR = true ↔ s'.SF = true ∧ s'.EC = N_DATA_EDGES)
    (searching_anchor : s'.SF = false → s'.ANCHOR = 0)
    (index_of_count : s'.SF = true →
      s'.IDX.toNat = (s'.ANCHOR.toNat + s'.EC) % s.cfg.RING_CAP) : CoreInv s' := by
  have hcap := h.bounds
  have hIDX : s'.IDX.toNat < s.cfg.RING_CAP := by rw [st.IDX]; exact Nat.mod_lt _ (by omega)
  constructor
  case cfg_wf => rw [st.cfg]; exact h.cfg_wf
  case LET_width => rw [st.cfg]; exact st.LET_width
  case EC_width => rw [st.cfg]; exact EC_width
  case IDX_in_ring => rw [st.cfg]; exact hIDX
  case ANCHOR_in_ring => rw [st.cfg]; exact ANCHOR_in_ring
  case ready_synced => exact fun hr => (ready_iff.1 hr).1
  case synced_count => exact synced_count
  case ready_iff => exact ready_iff
  case searching_anchor => exact searching_anchor
  case index_of_count => rw [st.cfg]; exact index_of_count
  case ring_wf => exact st.ring_wf
  case ring_indices =>
    intro i hi
    rw [st.cfg] at hi
    rw [st.read, if_neg (by omega)]
    exact h.ring_indices i hi
  case ring_values =>
    intro i
    rw [st.cfg, st.read]
    split
    · exact .inr st.valid
    · exact h.ring_values i

theorem PulseChange.stores {s s' : State} {d : Micros} : PulseChange s s' d → Stores s s' d
  | anchored st .. => st
  | searching st .. => st
  | counted st .. => st

theorem PulseChange.coreInv {s s' : State} {d : Micros} (h : CoreInv s) (hp : PulseChange s s' d) :
    CoreInv s' := by
  have hcap := h.bounds
  cases hp with
  | anchored st window SF EC ANCHOR FR =>
    have hIDX : s'.IDX.toNat < s.cfg.RING_CAP := by rw [st.IDX]; exact Nat.mod_lt _ (by omega)
    refine h.of_stores st ?_ ?_ ?_ ?_ ?_ ?_
    all_goals simp [SF, EC, ANCHOR, FR, hIDX, Nat.mod_eq_of_lt]
  | searching st before SF EC ANCHOR FR =>
    refine h.of_stores st EC (ANCHOR ▸ h.ANCHOR_in_ring) ?_ ?_ ?_ ?_
    all_goals simp [SF, FR, ANCHOR, h.searching_anchor before]
  | counted st before room SF EC ANCHOR FR =>
    have hwidth : s'.EC < 2 ^ s.cfg.EC_W := by simp only [N_DATA_EDGES] at room; omega
    refine h.of_stores st hwidth (ANCHOR ▸ h.ANCHOR_in_ring) ?_ ?_ ?_ ?_
    · exact fun _ => EC ▸ room
    · simpa only [SF, true_and] using FR
    · exact fun hx => by rw [SF] at hx; cases hx
    · intro _
      rw [st.IDX, h.index_of_count before, ANCHOR, EC, Nat.mod_add_mod, Nat.add_assoc]

theorem CaptureChange.coreInv {s s' : State} (h : CoreInv s) (hc : CaptureChange s s') :
    CoreInv s' := by
  cases hc with
  | kept ring EC SF ANCHOR FR =>
    exact h.same ring.cfg ring.LET_width ring.RB ring.IDX EC SF ANCHOR FR
  | captureReset ring EC SF ANCHOR FR =>
    exact h.captured ring.cfg ring.LET_width ring.RB ring.IDX EC SF ANCHOR FR
  | reset he => exact he ▸ h.resetCore
  | pulse d hp => exact hp.coreInv h

/-- Settles O48, by what the step does to the ring and the capture. -/
theorem stepKeepsInv : Obligations.StepKeepsInv := by
  intro s s' h hstep
  obtain ⟨ins, n, hc⟩ := step_captureChange h hstep
  exact hc.coreInv (h.with_ports ins n)

/-! ### The sync pattern at the anchor -/

/-- While synced, a stored duration goes `EC + 1` entries past the anchor. -/
theorem Stores.IDX_of_synced {s s' : State} {d : Micros} (h : CoreInv s) (st : Stores s s' d)
    (hs : s.SF = true) :
    s'.IDX.toNat = ringIndex s.cfg ((s.ANCHOR.toNat : Int) + ((s.EC + 1 : Nat) : Int)) := by
  rw [st.IDX, h.index_of_count hs, Nat.mod_add_mod, ← Int.natCast_add, ringIndex_natCast,
    Nat.add_assoc]

/-- While synced, a stored duration leaves every entry less than a turn behind it. In a ring of at least 120 (R8) with
at most 112 data edges, these include the 8 of the sync pattern and the `EC` after it. -/
theorem Stores.read_before {s s' : State} {d : Micros} (h : CoreInv s) (st : Stores s s' d)
    (hs : s.SF = true) {e : Int} (hlt : e < (s.EC : Int) + 1)
    (hturn : (s.EC : Int) + 1 - e < s.cfg.RING_CAP) :
    Memory.read s'.RB (ringIndex s.cfg ((s.ANCHOR.toNat : Int) + e))
      = Memory.read s.RB (ringIndex s.cfg ((s.ANCHOR.toNat : Int) + e)) := by
  rw [st.read, st.IDX_of_synced h hs, if_neg]
  exact (ringIndex_ne (by omega) (by omega)).symm

theorem PulseChange.syncHeld {s s' : State} {d : Micros} (h : CoreInv s) (hsync : SyncHeld s)
    (hp : PulseChange s s' d) : SyncHeld s' := by
  have hcap := h.bounds
  intro hs'
  cases hp with
  | anchored st window SF EC ANCHOR FR => rw [ANCHOR]; exact window
  | searching st before SF EC ANCHOR FR => rw [SF] at hs'; cases hs'
  | counted st before room SF EC ANCHOR FR =>
    simp only [N_DATA_EDGES] at room
    rw [st.cfg, ANCHOR]
    intro k hk
    simp only [N_SYNC_PAIRS] at hk
    have hhigh := st.read_before h before (e := -7 + 2 * (k : Int)) (by omega) (by omega)
    have hlow := st.read_before h before (e := -6 + 2 * (k : Int)) (by omega) (by omega)
    rw [Int.sub_eq_add_neg, Int.sub_eq_add_neg, Int.add_assoc, Int.add_assoc, hhigh, hlow,
      ← Int.add_assoc, ← Int.add_assoc]
    exact hsync before k hk

theorem CaptureChange.syncHeld {s s' : State} (h : CoreInv s) (hsync : SyncHeld s)
    (hc : CaptureChange s s') : SyncHeld s' := by
  cases hc with
  | kept ring EC SF ANCHOR FR =>
    unfold SyncHeld
    rw [SF, ring.cfg, ring.RB, ANCHOR]
    exact hsync
  | captureReset ring EC SF ANCHOR FR => exact fun hs' => by rw [SF] at hs'; cases hs'
  | reset he => subst he; exact nofun
  | pulse d hp => exact hp.syncHeld h hsync

/-- Settles O49, by what the step does to the ring and the capture. -/
theorem stepKeepsSyncPattern : Obligations.StepKeepsSyncPattern := by
  intro s s' h hsync hstep
  obtain ⟨ins, n, hc⟩ := step_captureChange h hstep
  exact hc.syncHeld (h.with_ports ins n) hsync

/-! ### The entries since the anchor -/

theorem entriesAre_nil {s : State} (h : s.EC = 0) : EntriesAre s [] := fun _ => by simp [h]

theorem entriesAre_of_searching {s : State} (h : s.SF = false) (ds : List Nat) : EntriesAre s ds :=
  fun hs => by rw [h] at hs; cases hs

/-- A data edge that is counted puts its duration after the entries since the match. -/
theorem EntriesAre.counted {s s' : State} {d : Micros} {ds : List Nat} (h : CoreInv s)
    (hds : EntriesAre s ds) (st : Stores s s' d) (hs : s.SF = true) (room : s.EC < N_DATA_EDGES)
    (EC : s'.EC = s.EC + 1) (ANCHOR : s'.ANCHOR = s.ANCHOR) : EntriesAre s' (ds ++ [d]) := by
  have hcap := h.bounds
  simp only [N_DATA_EDGES] at room
  obtain ⟨hlen, hget⟩ := hds hs
  refine fun _ => ⟨by simp [hlen, EC], fun k hk => ?_⟩
  unfold dataDuration
  rw [st.cfg, ANCHOR]
  by_cases hold : k < s.EC
  · rw [List.getElem?_append_left (by omega), hget k hold,
      st.read_before h hs (e := ((k + 1 : Nat) : Int)) (by omega) (by omega)]
    rfl
  · obtain rfl : k = s.EC := by omega
    rw [← hlen, List.getElem?_concat_length, hlen, ← st.IDX_of_synced h hs, st.read, if_pos rfl]

/-- R134, R106: a stored duration empties the list of the entries, by a match, or is put after it. -/
theorem PulseChange.entries {s s' : State} {d : Micros} {ds : List Nat} (h : CoreInv s)
    (hds : EntriesAre s ds) (hp : PulseChange s s' d) :
    (s'.SF = true ∧ s'.EC = 0 ∧ s'.ANCHOR = s'.IDX ∧ EntriesAre s' [])
      ∨ (s'.SF = s.SF ∧ EntriesAre s' (ds ++ [d])) := by
  cases hp with
  | anchored st window SF EC ANCHOR FR => exact .inl ⟨SF, EC, ANCHOR, entriesAre_nil EC⟩
  | searching st before SF EC ANCHOR FR =>
    exact .inr ⟨SF.trans before.symm, entriesAre_of_searching SF _⟩
  | counted st before room SF EC ANCHOR FR =>
    exact .inr ⟨SF.trans before.symm, hds.counted h st before room EC ANCHOR⟩

/-- Settles O50, by what the step does to the ring and the capture: a capture reset ends the claim on the list, and
RESET empties it. -/
theorem stepCarriesTheEntries : Obligations.StepCarriesTheEntries := by
  intro s s' ds h hds hstep
  obtain ⟨ins, n, hc⟩ := step_captureChange h hstep
  have h := h.with_ports ins n
  cases hc with
  | kept ring EC SF ANCHOR FR =>
    refine .inl ⟨ring.RB, ring.IDX, hds.same fun hs' => ?_⟩
    exact ⟨SF ▸ hs', ring.RB, ANCHOR, EC, ring.cfg⟩
  | captureReset ring EC SF ANCHOR FR =>
    exact .inl ⟨ring.RB, ring.IDX, entriesAre_of_searching SF _⟩
  | reset he =>
    subst he
    exact .inr (.inl ⟨rfl, nofun, entriesAre_nil rfl⟩)
  | pulse d hp =>
    have st := hp.stores
    rcases hp.entries h hds with ⟨-, hEC, hANCHOR, hds'⟩ | ⟨hSF, hds'⟩
    · exact .inr (.inl ⟨hEC, fun _ => hANCHOR, hds'⟩)
    · exact .inr (.inr ⟨d, st.duration, st.valid, hSF, st.IDX, by rw [st.read, if_pos rfl], hds'⟩)

/-! ### A run of pulses -/

theorem afterPulse_pulseChange {s : State} (h : CoreInv s) (hf : s.FR = false) {d : Nat}
    (hv : ValidPulse s.cfg d) : PulseChange s (afterPulse s d) d :=
  ingest_pulseChange h hf (addMod_lt _ _ _) (pulse_isDuration h.cfg_wf hv) hv

/-- R37 (I6) along a run: if the entries since the match are the last of the durations `past`, then after the pulses
`ds` they are the last of `past ++ ds`, as long as these do not exceed a frame. -/
theorem runInstrs_pulses_entries (ds : List Nat) {s : State} (past es : List Nat) (h : CoreInv s)
    (hp : s.PR = true) (hs : s.SF = true) (hes : EntriesAre s es) (hsuffix : es <:+ past)
    (hlen : past.length + ds.length ≤ N_DATA_EDGES) (hv : ∀ d ∈ ds, ValidPulse s.cfg d) :
    ∃ t es', runInstrs (pulses s ds) s = .next t ∧ t.SF = true ∧ EntriesAre t es'
      ∧ es' <:+ past ++ ds := by
  induction ds generalizing s past es with
  | nil => exact ⟨s, es, rfl, hs, hes, by simpa using hsuffix⟩
  | cons d ds ih =>
    have hd : ValidPulse s.cfg d := hv d (by simp)
    have hf : s.FR = false := by
      have hroom : s.EC < N_DATA_EDGES := by
        have := (hes hs).1 ▸ hsuffix.length_le
        simp only [List.length_cons] at hlen
        omega
      rw [← Bool.not_eq_true, h.ready_iff]
      exact fun hx => hroom.ne hx.2
    have hchange := afterPulse_pulseChange h hf hd
    obtain ⟨es', hs', hes', hsuffix'⟩ : ∃ es', (afterPulse s d).SF = true
        ∧ EntriesAre (afterPulse s d) es' ∧ es' <:+ past ++ [d] := by
      rcases hchange.entries h hes with ⟨hSF, -, -, hnil⟩ | ⟨hSF, hsnoc⟩
      · exact ⟨[], hSF, hnil, List.nil_suffix⟩
      · exact ⟨es ++ [d], hSF.trans hs, hsnoc, List.suffix_concat_iff.2 (.inr ⟨es, rfl, hsuffix⟩)⟩
    rw [runInstrs_pulses_cons h hp hf hd, List.append_cons]
    refine ih (past ++ [d]) es' (hchange.coreInv h) ((afterPulse_PR s d).trans hp) hs' hes' hsuffix'
      (by simp at hlen ⊢; omega) fun x hx => ?_
    rw [afterPulse_cfg]
    exact hv x (by simp [hx])

/-- Settles O57: at the match there are no entries, and a suffix of the run is read by position. -/
theorem entriesSinceTheAnchor : Obligations.EntriesSinceTheAnchor := by
  intro s ds h hp hs hEC hlen hv
  obtain ⟨t, es, hrun, ht, hes, hsuffix⟩ :=
    runInstrs_pulses_entries ds [] [] h hp hs (entriesAre_nil hEC) List.nil_suffix
      (by simpa using hlen) hv
  obtain ⟨hcount, hget⟩ := hes ht
  rw [List.nil_append] at hsuffix
  refine ⟨t, hrun, ht, hcount ▸ hsuffix.length_le, fun k hk => ?_⟩
  rw [← hget k hk, ← hcount, ← List.getElem?_drop, ← List.suffix_iff_eq_drop.1 hsuffix]

end Sys2Proof.Machine
end

section
/-! The memory and the order of steps (20_memory.md): the ring read back after a write, edges while a frame is
pending, the decoder on the encoder's words and a trace presented at the ports; and the statements O36, O37, O53
and O1. -/

namespace Sys2Proof.Machine

/-! ### The ring -/

/-- Settles O36: the two laws of a ring write. -/
theorem ringReadAfterWrite : Obligations.RingReadAfterWrite :=
  fun _ i j v h => ⟨Memory.wf_write i v h, Memory.read_write_wf i v j h⟩

/-! ### Edges while a frame is pending -/

/-- R101, R103: an edge while a frame is pending leaves its timestamp and a primed core, and nothing else. -/
theorem edgeStep_of_ready {s : State} (hf : s.FR = true) (t : Nat) :
    edgeStep t s = { s with LET := t, PR := true } := by
  rcases Bool.eq_false_or_eq_true s.PR with hp | hp
  · rw [edgeStep_drop hp hf, ← hp]
  · exact edgeStep_prime hp

theorem execState_edge_of_ready {s : State} (hf : s.FR = true) (t : Nat) :
    execState (.edge t) s
      = { s with LET := t % 2 ^ s.cfg.TS_W, PR := true, rsp := none, err := none } :=
  edgeStep_of_ready (s := clearOutputs s) hf (t % 2 ^ s.cfg.TS_W)

/-- Settles O37, by induction on the edges before the last: each leaves the core READY, and what it writes the next
one writes again. -/
theorem readyWaitsForPoll : Obligations.ReadyWaitsForPoll := by
  intro s ts t hf
  induction ts generalizing s with
  | nil => exact (exec_eq _ s).trans (congrArg _ (execState_edge_of_ready hf t))
  | cons u us ih =>
    rw [List.cons_append, List.map_cons, runInstrs_cons, execState_edge_of_ready hf]
    exact ih _ hf

/-! ### Decoding an encoded instruction -/

/-- R77: the five conditions on the fields leave exactly the words of R74. -/
theorem isIllegalWord_eq (w : Byte) : isIllegalWord w = !isLegalWord w := by
  revert w
  decide

theorem decodeCommand_nop (a : BitVec 3) : decodeCommand (0b00000#5 ++ a) = .nop a := by
  revert a
  decide

/-- R74: the index of `RDFRAME` is 0 to 6; R77 (d) makes the word with index 7 illegal. -/
theorem decodeCommand_rdframe {n : BitVec 3} (h : n ≤ 6) :
    decodeCommand (0b00100#5 ++ n) = .rdframe n := by
  revert n
  decide

theorem decodeCommand_illegal {w : Byte} (h : isLegalWord w = false) : decodeCommand w = .illegal w :=
  if_pos ((isIllegalWord_eq w).trans (by rw [h]; rfl))

/-- R70 to R77: the decoder reads back the word of every well-formed instruction. -/
theorem decode_encode {c : Config} {i : Instr} (h : i.wf c = true) : decode c (encode i) = i := by
  cases i with
  | edge t => exact congrArg Instr.edge (Nat.mod_eq_of_lt (of_decide_eq_true h))
  | nop a => exact decodeCommand_nop a
  | rdframe n => exact decodeCommand_rdframe (of_decide_eq_true h)
  | illegal w => exact decodeCommand_illegal (by simpa [Instr.wf] using h)
  | _ => rfl

/-! ### Steps of presented transactions -/

/-- Settles O1: the port gives the word, and the decoder reads the instruction back from it. -/
theorem stepRunsThePresentedInstruction : Obligations.StepRunsThePresentedInstruction := by
  intro s i rest hc hi hin
  rw [step_single hc hin, decode_encode hi]

/-- No instruction reads or writes what stands at the ports. -/
@[simp] theorem execState_inputs (i : Instr) (s : State) : (execState i s).inputs = s.inputs := by
  have hkept : execState i s = { execState i s with inputs := s.inputs } :=
    execState_with_inputs i s s.inputs
  rw [hkept]

/-- The first step of a presented trace performs its first transaction, with the others presented after it. -/
theorem step_presentTrace_cons {s : State} (hc : s.cfg.wf = true) (hin : s.inputs = [])
    (w : PortWord) (ws : List PortWord) :
    step (State.presentTrace (w :: ws) s)
      = .next (State.presentTrace ws (execState (decode s.cfg w) s)) := by
  have hports : (State.presentTrace (w :: ws) s).inputs
      = Presentation.ofWord w :: ws.map Presentation.ofWord := by
    simp [State.presentTrace, hin]
  have hrest : State.presentTrace ws (execState (decode s.cfg w) s)
      = { execState (decode s.cfg w) s with inputs := ws.map Presentation.ofWord } := by
    simp [State.presentTrace, hin]
  rw [step_single (s := State.presentTrace (w :: ws) s) hc hports, exec_eq, hrest]
  exact congrArg _ (execState_with_inputs _ s _)

/-- Settles O53, by induction on the words: after the first step the rest is presented to a state whose ports are
empty but for it, under the same configuration. -/
theorem presentedTraceRunsInOrder : Obligations.PresentedTraceRunsInOrder := by
  intro s ws hc hin
  induction ws generalizing s with
  | nil => exact ⟨s, rfl, congrArg Host.Outcome.next (by simp [State.presentTrace])⟩
  | cons w ws ih =>
    obtain ⟨t, hinstrs, hsteps⟩ :=
      ih (execState (decode s.cfg w) s) (by simpa using hc) (by simpa using hin)
    rw [execState_cfg] at hinstrs
    refine ⟨t, ?_, ?_⟩
    · rwa [List.map_cons, runInstrs_cons]
    · rwa [List.length_cons, runSteps, step_presentTrace_cons hc hin]

end Sys2Proof.Machine
end

section
/-! The encoding (30_encoding.md): the decoder and the encoder as inverses, the length a port fixes, the response of
each instruction and what POLL leaves, and the lines of a trace; and the statements O4, O3, O5, O6, O42, O25, O2,
O54 and O55. -/

namespace Sys2Proof.Machine

/-! ### The decoder and the encoder -/

/-- Settles O4: `decode_encode`, proved with the steps that present an instruction's word. -/
theorem decodeOfEncode : Obligations.DecodeOfEncode := fun _ _ => decode_encode

/-- R73 to R77: no bit of a command word is lost, over the 256 of them. -/
theorem encode_decodeCommand (w : Byte) : encode (decodeCommand w) = .command w := by
  revert w
  decide

/-- R77 (d): of the words of `RDFRAME`, the legality test lets through those with index 0 to 6. -/
theorem cmdArg_le_six {w : Byte} (h : isIllegalWord w = false) (hop : cmdOp w = 0x2) :
    cmdArg w ≤ 6 := by
  revert w
  decide

theorem decodeRdstat_wf (c : Config) (arg : BitVec 3) : (decodeRdstat arg).wf c = true := by
  unfold decodeRdstat
  split
  · rfl
  · split
    · rfl
    · split <;> rfl

/-- R74, R77: the decoder gives an illegal command only for a word that is none of the legal ones, and an
index of `RDFRAME` in its range. -/
theorem decodeCommand_wf (c : Config) (w : Byte) : (decodeCommand w).wf c = true := by
  unfold decodeCommand
  split
  case isTrue hill => exact (isIllegalWord_eq w).symm.trans hill
  case isFalse hlegal =>
    split
    · rfl
    · split
      · rfl
      · split
        case isTrue hop => exact decide_eq_true (cmdArg_le_six (Bool.eq_false_of_not_eq_true hlegal) hop)
        case isFalse => exact decodeRdstat_wf c _

theorem decode_wf (c : Config) (x : PortWord) : (decode c x).wf c = true := by
  cases x with
  | edge w => exact decode_wf_edge c w
  | command w => exact decodeCommand_wf c w
  | reset => rfl

theorem encode_decode {c : Config} {x : PortWord} (h : x.value < 2 ^ x.port.bits c) :
    encode (decode c x) = x := by
  cases x with
  | edge w => exact congrArg PortWord.edge (Nat.mod_eq_of_lt h)
  | command w => exact encode_decodeCommand w
  | reset => rfl

/-- Settles O5, port by port in the two lemmas above. -/
theorem encodeOfDecode : Obligations.EncodeOfDecode := fun c x h => ⟨decode_wf c x, encode_decode h⟩

/-- The illegal commands come from the illegal words, each from its own: what the decoder gives is well formed and
encodes back. -/
theorem decodeCommand_eq_illegal_iff (w v : Byte) :
    decodeCommand w = .illegal v ↔ v = w ∧ isLegalWord w = false := by
  constructor
  · intro h
    have hback : PortWord.command v = .command w := by simpa [h, encode] using encode_decodeCommand w
    obtain rfl : v = w := PortWord.command.inj hback
    have hwf : (Instr.illegal v).wf Config.TC = true := h ▸ decodeCommand_wf Config.TC v
    exact ⟨rfl, by simpa [Instr.wf] using hwf⟩
  · rintro ⟨rfl, h⟩
    exact decodeCommand_illegal h

/-- R74: the ranges of the legal words, as numbers. -/
theorem isLegalWord_iff (w : Byte) :
    isLegalWord w = true ↔ w.toNat ≤ 0x07 ∨ w.toNat = 0x10 ∨ (0x20 ≤ w.toNat ∧ w.toNat ≤ 0x26)
      ∨ (0x30 ≤ w.toNat ∧ w.toNat ≤ 0x33) := by
  simp [isLegalWord, BitVec.le_def, ← BitVec.toNat_inj, or_assoc]

/-- Settles O3: the illegal commands by the legal ranges, and these as numbers. -/
theorem illegalWordsAreTheOthers : Obligations.IllegalWordsAreTheOthers := by
  intro w v
  rw [decodeCommand_eq_illegal_iff, ← isLegalWord_iff, Bool.not_eq_true]

/-- Settles O2: each word is computed through its row's length, the port and the decoder under TC. -/
theorem wordsDecodeAsTabled : Obligations.WordsDecodeAsTabled := by
  unfold Obligations.WordsDecodeAsTabled
  decide

/-! ### The length of a transaction -/

/-- R79: what a port accepts has that port's length and fits in it. -/
theorem length_of_wordAt_ok {c : Config} {p : Port} {nbits w : Nat} {x : PortWord}
    (h : wordAt c p nbits w = .ok x) : nbits = p.bits c ∧ w < 2 ^ nbits := by
  unfold wordAt at h
  split at h
  · cases h
  · split at h
    · cases h
    · exact ⟨by omega, by omega⟩

/-- R79: a port accepts every number that fits in its length, as its own word with that value. -/
theorem exists_wordAt_ok {c : Config} {p : Port} {w : Nat} (h : w < 2 ^ p.bits c) :
    ∃ x, wordAt c p (p.bits c) w = .ok x ∧ x.port = p ∧ x.value = w := by
  unfold wordAt
  rw [if_neg (not_not_intro rfl), if_neg h.not_ge]
  cases p with
  | edge => exact ⟨_, rfl, rfl, rfl⟩
  | command => exact ⟨_, rfl, rfl, Nat.mod_eq_of_lt h⟩
  | reset => exact ⟨_, rfl, rfl, (Nat.lt_one_iff.1 h).symm⟩

/-- Settles O6: a bit string of the port's length is a word that decodes and encodes back; another one is rejected
before it is decoded. -/
theorem lengthFromThePortAlone : Obligations.LengthFromThePortAlone := by
  intro c p nbits w
  constructor
  · rintro ⟨i, hdecode, -⟩
    unfold decodeAt at hdecode
    cases hword : wordAt c p nbits w with
    | error r => rw [hword] at hdecode; cases hdecode
    | ok x => exact length_of_wordAt_ok hword
  · rintro ⟨rfl, hfits⟩
    obtain ⟨x, hword, rfl, rfl⟩ := exists_wordAt_ok hfits
    refine ⟨decode c x, by rw [decodeAt, hword]; rfl, ?_⟩
    rw [encode_decode hfits]
    exact ⟨rfl, rfl⟩

/-! ### Responses -/

@[simp] theorem edgeStep_rsp (t : Nat) (s : State) : (edgeStep t s).rsp = s.rsp := by
  rcases edgeStep_cases t s with ⟨-, h⟩ | ⟨-, -, h⟩ | ⟨-, -, -, h⟩ | ⟨-, -, -, h⟩
  all_goals simp [h, ingest]

/-- R86, R164 to R170: POLL's response and what it does to the capture, with no frame pending and with one. -/
theorem pollStep_response_cases (s : State) :
    (s.FR = false ∧ (pollStep s).rsp = some 0x000)
      ∨ (s.FR = true
        ∧ ((pollStep s).rsp = some 0x001 ∨ (pollStep s).rsp = some 0x083
          ∨ (pollStep s).rsp = some 0x084)
        ∧ (pollStep s).FR = false ∧ (pollStep s).SF = false ∧ (pollStep s).EC = 0
        ∧ (pollStep s).ANCHOR = 0) := by
  rcases pollStep_cases s with ⟨hf, h⟩ | ⟨hf, _, h⟩ | ⟨hf, _, -, h⟩ | ⟨hf, _, -, h⟩
  all_goals rw [h]
  · exact .inl ⟨hf, rfl⟩
  · exact .inr ⟨hf, .inr (.inl rfl), rfl, rfl, rfl, rfl⟩
  · exact .inr ⟨hf, .inr (.inr rfl), rfl, rfl, rfl, rfl⟩
  · exact .inr ⟨hf, .inl rfl, rfl, rfl, rfl, rfl⟩

/-- Settles O25, from POLL's response cases and the elements no command writes. -/
theorem pollAlwaysRearms : Obligations.PollAlwaysRearms := by
  intro s
  obtain ⟨hLET, hPR, hRB, hIDX⟩ := pollStep_producer (clearOutputs s)
  refine ⟨_, exec_eq .poll s, ?_⟩
  rcases pollStep_response_cases (clearOutputs s) with ⟨hf, hrsp⟩ | ⟨hf, hrsp, hcapture⟩
  · have hnone : s.FR ≠ true := ne_true_of_eq_false hf
    exact ⟨.inl hrsp, iff_of_true hrsp hf, fun hready => absurd hready hnone, hLET, hPR, hIDX, hRB⟩
  · have hcode : (pollStep (clearOutputs s)).rsp ≠ some 0x000 := by
      rcases hrsp with h | h | h
      all_goals rw [h]; decide
    exact ⟨.inr hrsp, iff_of_false hcode (ne_false_of_eq_true hf), fun _ => hcapture, hLET, hPR, hIDX, hRB⟩

/-- R85: `ILL = 0`, in bit 8. -/
theorem legal_response_bit8 (data : Byte) : (BitVec.ofBool false ++ data).getLsbD 8 = false := by
  rw [BitVec.getLsbD_append]
  rfl

/-- R85: EDGE and RESET respond nothing, an illegal word `ILL = 1` with `DATA = 0`, and the other commands `ILL = 0`
with some `DATA`. -/
theorem execState_response_cases {i : Instr} {s : State} (h : i.wf s.cfg = true) :
    (isCommand i = false ∧ (execState i s).rsp = none)
      ∨ (∃ w, i = .illegal w ∧ (execState i s).rsp = some 0x100)
      ∨ (isCommand i = true ∧ (∀ w, i ≠ .illegal w)
        ∧ ∃ data : Byte, (execState i s).rsp = some (BitVec.ofBool false ++ data)) := by
  cases i with
  | edge t => exact .inl ⟨rfl, edgeStep_rsp _ (clearOutputs s)⟩
  | reset => exact .inl ⟨rfl, rfl⟩
  | illegal w => exact .inr (.inl ⟨w, rfl, rfl⟩)
  | poll =>
    refine .inr (.inr ⟨rfl, nofun, ?_⟩)
    rcases pollStep_cases (clearOutputs s) with ⟨-, h⟩ | ⟨-, _, h⟩ | ⟨-, _, -, h⟩ | ⟨-, _, -, h⟩
    all_goals exact ⟨_, congrArg State.rsp h⟩
  | rdframe n =>
    have hn : n.toNat < N_BYTES := Nat.lt_succ_of_le (of_decide_eq_true h : n ≤ 6)
    exact .inr (.inr ⟨rfl, nofun, _, by rw [execState, dif_pos hn]; rfl⟩)
  | _ => exact .inr (.inr ⟨rfl, nofun, _, rfl⟩)

/-- Settles O42, by the three kinds of response. -/
theorem responsesOfCommandsOnly : Obligations.ResponsesOfCommandsOnly := by
  intro i s hwf
  refine ⟨_, exec_eq i s, ?_⟩
  rcases execState_response_cases hwf with ⟨hcmd, hrsp⟩ | ⟨w, rfl, hrsp⟩ | ⟨hcmd, hlegal, data, hrsp⟩
  all_goals rw [hrsp]
  · exact ⟨iff_of_true rfl hcmd, fun w hi => (by rw [hi] at hcmd; cases hcmd), nofun⟩
  · exact ⟨iff_of_false nofun nofun, fun _ _ => rfl, fun hne => absurd rfl (hne w)⟩
  · refine ⟨iff_of_false nofun (ne_false_of_eq_true hcmd), fun w hi => absurd hi (hlegal w), fun _ v hv => ?_⟩
    rw [← Option.some.inj hv]
    exact legal_response_bit8 data

/-! ### The lines of a trace -/

theorem length_pulseTimes (c : Config) (T : Nat) (ds : List Nat) :
    (pulseTimes c T ds).length = ds.length := by
  induction ds generalizing T with
  | nil => rfl
  | cons d ds ih => simp [pulseTimes, ih]

theorem length_expandPulses (c : Config) (T : Nat) (ds : List Nat) :
    (expandPulses c T ds).1.length = ds.length := by
  simp [expandPulses, length_pulseTimes]

theorem length_bitDurations (c : Config) (b : Bool) : (bitDurations c b).length = 2 := by
  cases b <;> rfl

theorem length_byteDurations (c : Config) (v : Nat) : (byteDurations c v).length = 16 := by
  simp [byteDurations, length_bitDurations]

/-- Settles O54: the texts are assembled, and the edges of FRAME7 counted byte by byte. -/
theorem traceEncodingExamples : Obligations.TraceEncodingExamples := by
  refine ⟨?_, ?_, ?_, ?_, ?_, ?_, ?_, fun T b0 b1 b2 b3 b4 b5 b6 => ?frame7⟩
  case frame7 =>
    rw [TraceLine.expand, length_expandPulses]
    simp [frameDurations, length_byteDurations]
  all_goals decide

theorem expandLines_singleton (c : Config) (T : Nat) (l : TraceLine) :
    expandLines c T [l] = l.expand c T := by
  simp [expandLines]

/-- Lines that are each a run of pulses are together the run of all their pulses. -/
theorem expandLines_map_of_pulses {α : Type} {c : Config} {line : α → TraceLine} {ds : α → List Nat}
    (h : ∀ x T, (line x).expand c T = expandPulses c T (ds x)) (xs : List α) (T : Nat) :
    expandLines c T (xs.map line) = expandPulses c T (xs.flatMap ds) := by
  induction xs generalizing T with
  | nil => rfl
  | cons x xs ih =>
    rw [List.map_cons, List.flatMap_cons, expandPulses_append, expandLines, h, ih]

theorem bitLine_expand (c : Config) (b : Bool) (T : Nat) :
    (if b then TraceLine.bit1 else TraceLine.bit0).expand c T = expandPulses c T (bitDurations c b) := by
  cases b <;> rfl

theorem pair_expand (c : Config) (T h l : Nat) :
    (TraceLine.pair h l).expand c T = expandLines c T [.pulse h, .pulse l] :=
  expandPulses_eq_lines c T [h, l]

theorem preamble_expand (c : Config) (T : Nat) :
    TraceLine.preamble.expand c T = expandLines c T (List.replicate 4 .syncPair) :=
  (expandLines_map_of_pulses (line := fun _ : Unit => .syncPair) (fun _ _ => rfl)
    (List.replicate 4 ()) T).symm

/-- R91: `BYTE v` is its bits, most significant first. -/
theorem byte_expand (c : Config) (T v : Nat) :
    (TraceLine.byte v).expand c T = expandLines c T
      ([7, 6, 5, 4, 3, 2, 1, 0].map fun k => if v.testBit k then .bit1 else .bit0) :=
  (expandLines_map_of_pulses (fun k T => bitLine_expand c (v.testBit k) T) _ T).symm

/-- R91: a run of the pulses of some bytes is one `BYTE` line for each. -/
theorem expandPulses_frameDurations (c : Config) (T : Nat) (bs : List Nat) :
    expandPulses c T (frameDurations c bs) = expandLines c T (bs.map .byte) :=
  (expandLines_map_of_pulses (fun _ _ => rfl) bs T).symm

/-- R73, R74: a command word from its upper five bits and its argument, as a number and as bits. -/
theorem ofNat_commandWord (op : BitVec 5) {a : Nat} (h : a ≤ 7) :
    BitVec.ofNat 8 (8 * op.toNat + a) = op ++ BitVec.ofNat 3 a := by
  apply BitVec.eq_of_toNat_eq
  have hop := op.isLt
  have ha : a < 2 ^ 3 := by omega
  rw [BitVec.toNat_append, BitVec.toNat_ofNat, BitVec.toNat_ofNat, Nat.mod_eq_of_lt ha,
    ← Nat.shiftLeft_add_eq_or_of_lt ha, Nat.shiftLeft_eq]
  omega

/-- Settles O55, line by line of R91's table. -/
theorem pseudoInstructionsExpand : Obligations.PseudoInstructionsExpand := by
  intro c T
  refine ⟨fun _ => rfl, rfl, fun _ => rfl, pair_expand c T, ?syncPair, preamble_expand c T, ?bit1, ?bit0,
    byte_expand c T, fun _ _ _ _ _ _ _ => expandPulses_frameDurations c T _, fun _ _ _ _ _ _ => rfl,
    rfl, rfl, rfl, rfl, fun _ => rfl, fun a ha => ?nop, rfl, fun n hn => ?rdframe, rfl⟩
  case syncPair | bit1 | bit0 => exact (expandLines_singleton ..).symm
  case nop =>
    have hword := ofNat_commandWord 0b00000#5 ha
    simpa [TraceLine.expand, expandCommand, encode] using hword
  case rdframe =>
    have hword := ofNat_commandWord 0b00100#5 (a := n) (by omega)
    simpa [TraceLine.expand, expandCommand, encode] using hword

end Sys2Proof.Machine
end

section
/-! Edge capture (40_edge_capture.md): the rows of R110 that store nothing, the row that appends while searching, and
what no EDGE touches; and the statements O29, O30, O31, O32 and O35. -/

namespace Sys2Proof.Machine

/-! ### Edges that store nothing -/

/-- Settles O29: the priming row of R101, on the state with its outputs cleared. -/
theorem edgePrimes : Obligations.EdgePrimes := by
  intro s t hp
  have hprime : execState (.edge t) s = { clearOutputs s with LET := lowBits s.cfg.TS_W t, PR := true } :=
    edgeStep_prime (s := clearOutputs s) hp
  rw [exec_eq, hprime]
  rfl

/-- Settles O30: the row of R103, for a primed core and an unprimed one. -/
theorem edgeDroppedWhileReady : Obligations.EdgeDroppedWhileReady := by
  intro s t hf
  rw [exec_eq, execState_edge_of_ready hf]

/-- R104: EDGE with a duration outside the envelope, primed and with no frame pending. -/
theorem execState_edge_noise {s : State} {t d : Nat} (hp : s.PR = true) (hf : s.FR = false)
    (hd : IsDuration s.cfg s.LET t d) (hv : ¬ ValidPulse s.cfg d) :
    execState (.edge t) s
      = raiseError (.pulseTiming d) (captureReset { clearOutputs s with LET := lowBits s.cfg.TS_W t }) := by
  have hdc : duration (clearOutputs s).cfg (lowBits s.cfg.TS_W t) (clearOutputs s).LET = d :=
    duration_eq hd
  have hnoise : isNoise s.cfg d = true := (isNoise_iff s.cfg d).2 hv
  have hstep := edgeStep_noise (s := clearOutputs s) hp hf (hdc.symm ▸ hnoise)
  rw [hdc] at hstep
  exact hstep

/-- Settles O31: the noise row, whose raise follows the capture reset. -/
theorem edgeNoiseResetsCapture : Obligations.EdgeNoiseResetsCapture := by
  intro s t d hp hf hd hv
  rw [exec_eq, execState_edge_noise hp hf hd hv]
  rfl

/-! ### Edges that append without a match -/

/-- R107: without a match the sync check leaves the stored and counted duration to the frame-phase check. -/
theorem exec_edge_of_not_completesSync {s : State} {t d : Nat} (hc : s.cfg.wf = true) (hp : s.PR = true)
    (hf : s.FR = false) (hd : IsDuration s.cfg s.LET t d) (hv : ValidPulse s.cfg d)
    (hw : ¬ CompletesSync s d) :
    exec (.edge t) s = .next (phaseCheck (edgeStored s t d)) := by
  rw [exec_edge_valid hc hp hf hd hv, syncCheck_of_not_window (mt (edgeStored_window_iff hc t d).1 hw)]

/-- R150: the frame-phase check is made while synced only. -/
theorem phaseCheck_of_searching {s : State} (h : s.SF = false) : phaseCheck s = s :=
  if_neg (by simp [h])

/-- Settles O32: without a match, and while searching, both checks leave the stored and counted duration. -/
theorem edgeAppendsWhileSearching : Obligations.EdgeAppendsWhileSearching := by
  intro s t d hc hp hf hd hv hs hw
  have hsearching : (edgeStored s t d).SF = false := hs
  rw [exec_edge_of_not_completesSync hc hp hf hd hv hw, phaseCheck_of_searching hsearching]
  rfl

/-! ### What EDGE leaves alone -/

@[simp] theorem ingest_RB (d : Micros) (s : State) :
    (ingest d s).RB = Memory.write s.RB (appendIndex s) (lowBits s.cfg.DUR_W d) := by
  simp [ingest]

@[simp] theorem ingest_draws (d : Micros) (s : State) : (ingest d s).draws = s.draws := by
  simp [ingest]

@[simp] theorem edgeStep_draws (t : Nat) (s : State) : (edgeStep t s).draws = s.draws := by
  rcases edgeStep_cases t s with ⟨-, h⟩ | ⟨-, -, h⟩ | ⟨-, -, -, h⟩ | ⟨-, -, -, h⟩
  all_goals simp [h]

/-- R153, R210: the only error of an ingested duration is FrameOverrun, whose code is 2. -/
theorem ingest_err_ne_pulseTiming {s : State} (h : s.err = none) (d info : Nat) :
    (ingest d s).err ≠ some ⟨1, info⟩ := by
  have hstored : (stored d s).err ≠ some ⟨1, info⟩ := by simp [stored, h]
  rcases ingest_cases d s with ⟨-, he⟩ | ⟨-, ⟨-, he⟩ | ⟨-, -, he⟩ | ⟨-, -, he⟩ | ⟨-, -, he⟩⟩
  case inr.inr.inr.inr => simp [he, CoreError.code]
  all_goals rw [he]; exact hstored

/-- What an EDGE does to the ring: it keeps the entries and the index, or it is a primed edge with no frame pending
and no PulseTimingError, which writes one entry, at the append index. -/
theorem edgeStep_ring_cases {s : State} (h : s.err = none) (t : Nat) :
    ((edgeStep t s).RB = s.RB ∧ (edgeStep t s).IDX = s.IDX)
      ∨ (s.PR = true ∧ s.FR = false ∧ (∀ info, (edgeStep t s).err ≠ some ⟨1, info⟩)
        ∧ ∃ v, (edgeStep t s).RB = Memory.write s.RB (appendIndex s) v) := by
  rcases edgeStep_cases t s with ⟨-, he⟩ | ⟨-, -, he⟩ | ⟨-, -, -, he⟩ | ⟨hp, hf, -, he⟩
  case inr.inr.inr =>
    rw [he]
    exact .inr ⟨hp, hf, ingest_err_ne_pulseTiming (s := { s with LET := t }) h _, _, ingest_RB _ _⟩
  all_goals exact .inl (by rw [he]; exact ⟨rfl, rfl⟩)

/-- Settles O35: the ring by `edgeStep_ring_cases`, `LAST_ERR` by the report of R211, and the other elements because
no part of an edge's step writes them. -/
theorem edgeFrame : Obligations.EdgeFrame := by
  intro s s' t hm hexec
  have hlast : s'.err = none → s'.LAST_ERR = s.LAST_ERR :=
    fun herr => (errorEventSetsLastErr _ s s' hexec).2 herr nofun
  obtain rfl := (exec_next_iff _ _ _).1 hexec
  refine ⟨edgeStep_FRAME _ _, edgeStep_FV _ _, execState_cfg _ s, execState_inputs _ s, edgeStep_draws _ _,
    edgeStep_rsp _ _, hlast, ?_⟩
  rcases edgeStep_ring_cases (s := clearOutputs s) rfl (lowBits s.cfg.TS_W t) with
    ⟨hRB, hIDX⟩ | ⟨hp, hf, herr, v, hRB⟩
  · exact ⟨fun i _ => congrArg (Memory.read · i) hRB, fun _ => ⟨hRB, hIDX⟩⟩
  · refine ⟨fun i hi => ?entry, ?stored⟩
    case entry =>
      calc Memory.read (execState (.edge t) s).RB i
          = Memory.read (Memory.write s.RB (appendIndex s) v) i := congrArg (Memory.read · i) hRB
        _ = Memory.read s.RB i := by rw [Memory.read_write_wf _ v i hm, if_neg hi.symm]
    case stored =>
      rintro (hprime | hready | ⟨d, hnoise⟩)
      · cases hp.symm.trans hprime
      · cases hf.symm.trans hready
      · exact absurd hnoise (herr d)

end Sys2Proof.Machine
end

section
/-! Sync detection (41_sync_detector.md): the row of R110 that anchors, and a whole frame from its sync pattern to the
POLL that validates it; and the statements O33 and O58. -/

namespace Sys2Proof.Machine

/-! ### An edge that completes the sync pattern -/

theorem syncCheck_of_window {s : State} (h : SyncWindow s.cfg s.RB s.IDX.toNat) :
    syncCheck s = { s with SF := true, ANCHOR := s.IDX, EC := 0 } := by
  rcases syncCheck_cases s with ⟨-, he⟩ | ⟨hw, -⟩
  · exact he
  · exact absurd h hw

/-- Settles O33: the match anchors at the index just written, and the count 0 leaves the frame-phase check nothing to
do. -/
theorem edgeAnchorsOnSync : Obligations.EdgeAnchorsOnSync := by
  intro s t d hc hp hf hd hv hw
  have hanchor := syncCheck_of_window ((edgeStored_window_iff hc t d).2 hw)
  rw [exec_edge_valid hc hp hf hd hv, hanchor, phaseCheck_of_synced rfl, if_pos (show 0 < N_DATA_EDGES by decide)]
  rfl

/-! ### The newest entries of the ring -/

/-- The newest entries of the ring are `ds`, in arrival order. -/
def NewestAre (s : State) (ds : List Nat) : Prop :=
  ∀ k, k < ds.length → ds[k]? = some (back s (ds.length - 1 - k))

theorem newestAre_nil (s : State) : NewestAre s [] := nofun

theorem NewestAre.getD {s : State} {ds : List Nat} (h : NewestAre s ds) {k : Nat} (hk : k < ds.length) :
    ds.getD k 0 = back s (ds.length - 1 - k) := by
  rw [List.getD_eq_getElem?_getD, h k hk, Option.getD_some]

/-- R105: a pulse puts its duration after the newest entries, as long as they do not fill the ring. -/
theorem NewestAre.afterPulse {s : State} {ds : List Nat} {d : Nat} (hds : NewestAre s ds) (h : CoreInv s)
    (hv : ValidPulse s.cfg d) (hcap : ds.length < s.cfg.RING_CAP) :
    NewestAre (afterPulse s d) (ds ++ [d]) := by
  intro k hk
  rw [List.length_append, List.length_singleton] at hk ⊢
  by_cases hold : k < ds.length
  · have hback := back_afterPulse_succ h hv (k := ds.length - 1 - k) (by omega)
    rw [List.getElem?_append_left hold, hds k hold, ← hback]
    congr 2
    omega
  · obtain rfl : k = ds.length := by omega
    rw [List.getElem?_concat_length, Nat.add_sub_cancel, Nat.sub_self, back_afterPulse_zero h hv]

/-- R131, R132: the durations `sync` are four sync pairs within tolerance, the high of each first. -/
def AreSyncPairs (c : Config) (sync : List Nat) : Prop :=
  sync.length = 8 ∧ ∀ k, k < 4 → SampleIn (sync.getD (2 * k) 0) c.SYNC_HIGH c.SYNC_TOL
    ∧ SampleIn (sync.getD (2 * k + 1) 0) c.SYNC_LOW c.SYNC_TOL

/-- Sync pairs that are the newest entries are the window the sync check inspects. -/
theorem NewestAre.syncWindow {s : State} {sync : List Nat} (h : NewestAre s sync)
    (hsync : AreSyncPairs s.cfg sync) : SyncWindow s.cfg s.RB s.IDX.toNat := by
  obtain ⟨hlen, hpairs⟩ := hsync
  rw [syncWindow_iff_back]
  intro k hk
  have hhigh : sync.getD (2 * k) 0 = back s (7 - 2 * k) := by
    rw [h.getD (by omega), hlen]
  have hlow : sync.getD (2 * k + 1) 0 = back s (6 - 2 * k) := by
    rw [h.getD (by omega), hlen]
    congr 1
    omega
  rw [← hhigh, ← hlow]
  exact hpairs k hk

/-! ### The sync pulses -/

/-- (I3): a core that has room for an edge, once synced, has no frame pending. -/
theorem CoreInv.not_ready {s : State} (h : CoreInv s) (hroom : s.SF = true → s.EC < N_DATA_EDGES) :
    s.FR = false := by
  rw [← Bool.not_eq_true, h.ready_iff]
  exact fun hready => (hroom hready.1).ne hready.2

/-- R106, R134: a pulse counts at most one edge. -/
theorem PulseChange.count_le {s s' : State} {d : Micros} (hp : PulseChange s s' d) (hs' : s'.SF = true) :
    s'.EC = 0 ∨ (s.SF = true ∧ s'.EC = s.EC + 1) := by
  cases hp with
  | anchored st window SF EC ANCHOR FR => exact .inl EC
  | searching st before SF EC ANCHOR FR => cases SF.symm.trans hs'
  | counted st before room SF EC ANCHOR FR => exact .inr ⟨before, EC⟩

/-- Pulses too few to complete a frame are all stored, wherever they anchor: the run goes on from a state that has them
as its newest entries and has counted no more than them. -/
theorem runInstrs_pulses_newest (ds rest : List Nat) {s : State} (past : List Nat) (h : CoreInv s)
    (hp : s.PR = true) (hpast : NewestAre s past) (hcount : s.SF = true → s.EC ≤ past.length)
    (hlen : past.length + ds.length < N_DATA_EDGES) (hv : ∀ d ∈ ds, ValidPulse s.cfg d) :
    ∃ t, runInstrs (pulses s (ds ++ rest)) s = runInstrs (pulses t rest) t ∧ CoreInv t ∧ t.PR = true
      ∧ t.cfg = s.cfg ∧ NewestAre t (past ++ ds) ∧ (t.SF = true → t.EC ≤ (past ++ ds).length) := by
  induction ds generalizing s past with
  | nil => exact ⟨s, rfl, h, hp, rfl, by rwa [List.append_nil], by rwa [List.append_nil]⟩
  | cons d ds ih =>
    have hd : ValidPulse s.cfg d := hv d List.mem_cons_self
    have hf : s.FR = false := h.not_ready fun hs => (hcount hs).trans_lt (Nat.lt_of_add_right_lt hlen)
    have hchange := afterPulse_pulseChange h hf hd
    have hcount' : (afterPulse s d).SF = true → (afterPulse s d).EC ≤ (past ++ [d]).length := by
      intro hs'
      rw [List.length_append, List.length_singleton]
      rcases hchange.count_le hs' with hzero | ⟨hs, hsucc⟩
      · rw [hzero]; exact Nat.zero_le _
      · rw [hsucc]; exact Nat.succ_le_succ (hcount hs)
    have hcap : past.length < s.cfg.RING_CAP := by
      have := h.bounds
      simp only [N_DATA_EDGES] at hlen
      omega
    have hlen' : (past ++ [d]).length + ds.length < N_DATA_EDGES := by
      simpa [Nat.add_assoc, Nat.add_comm 1] using hlen
    obtain ⟨t, hrun, ht, htp, hcfg, hfacts⟩ := ih (past ++ [d]) (hchange.coreInv h)
      ((afterPulse_PR s d).trans hp) (hpast.afterPulse h hd hcap) hcount' hlen'
      (fun x hx => by rw [afterPulse_cfg]; exact hv x (List.mem_cons_of_mem d hx))
    refine ⟨t, ?_, ht, htp, hcfg.trans (afterPulse_cfg s d), by rwa [List.append_cons]⟩
    rw [List.cons_append, runInstrs_pulses_cons h hp hf hd, hrun]

/-- R131, R134: from a searching core, four sync pairs leave the core synced at the last of them, with no edge counted,
whether or not an earlier window, with older entries, has anchored too. -/
theorem runInstrs_pulses_sync {s : State} {sync : List Nat} (rest : List Nat) (h : CoreInv s)
    (hp : s.PR = true) (hs : s.SF = false) (hsync : AreSyncPairs s.cfg sync)
    (hv : ∀ d ∈ sync, ValidPulse s.cfg d) :
    ∃ t, runInstrs (pulses s (sync ++ rest)) s = runInstrs (pulses t rest) t ∧ CoreInv t ∧ t.PR = true
      ∧ t.cfg = s.cfg ∧ t.SF = true ∧ t.EC = 0 := by
  have hne : sync ≠ [] := List.ne_nil_of_length_pos (hsync.1 ▸ by decide)
  obtain ⟨init, last, rfl⟩ : ∃ init last, sync = init ++ [last] :=
    ⟨_, _, (List.dropLast_append_getLast hne).symm⟩
  have hlen : init.length = 7 := by simpa using hsync.1
  have hfew : init.length < N_DATA_EDGES := by rw [hlen]; decide
  obtain ⟨t, hrun, ht, htp, hcfg, hnewest, hcount⟩ :=
    runInstrs_pulses_newest init (last :: rest) [] h hp (newestAre_nil s) (fun hx => by cases hs.symm.trans hx)
      (by simpa using hfew) (fun d hd => hv d (List.mem_append_left _ hd))
  rw [List.nil_append] at hnewest hcount
  have hf : t.FR = false := ht.not_ready fun hx => (hcount hx).trans_lt hfew
  have hlast : ValidPulse t.cfg last := hcfg ▸ hv last (by simp)
  have hwindow : SyncWindow t.cfg (afterPulse t last).RB (afterPulse t last).IDX.toNat := by
    have hcap := ht.bounds
    rw [← afterPulse_cfg t last]
    refine (hnewest.afterPulse ht hlast (by omega)).syncWindow ?_
    rwa [afterPulse_cfg, hcfg]
  rcases afterPulse_cases ht hf (d := last) with ⟨-, hSF, -, hEC, -⟩ | ⟨hnone, -⟩
  · refine ⟨afterPulse t last, ?_, (afterPulse_pulseChange ht hf hlast).coreInv ht,
      (afterPulse_PR t last).trans htp, (afterPulse_cfg t last).trans hcfg, hSF, hEC⟩
    rw [List.append_assoc, List.singleton_append, hrun, runInstrs_pulses_cons ht htp hf hlast]
  · exact absurd hwindow hnone

/-! ### The data pulses -/

/-- While synced, a pulse whose duration lies off the sync-low window completes no pattern: it is counted. -/
theorem PulseChange.counted_of_off_sync {s s' : State} {d : Micros} {es : List Nat} (hp : PulseChange s s' d)
    (h : CoreInv s) (hes : EntriesAre s es) (hs : s.SF = true)
    (hoff : ¬ SampleIn d s.cfg.SYNC_LOW s.cfg.SYNC_TOL) :
    s'.SF = true ∧ EntriesAre s' (es ++ [d]) := by
  cases hp with
  | anchored st window SF EC ANCHOR FR =>
    have hnewest := window.newest ((PulseChange.anchored st window SF EC ANCHOR FR).coreInv h).IDX_in_ring
    rw [st.read, if_pos rfl, st.cfg] at hnewest
    exact absurd hnewest hoff
  | searching st before SF EC ANCHOR FR => cases hs.symm.trans before
  | counted st before room SF EC ANCHOR FR => exact ⟨SF, hes.counted h st before room EC ANCHOR⟩

/-- R137: while synced, pulses off the sync-low window re-anchor nothing: their durations follow the entries since the
match, as long as these do not exceed a frame. -/
theorem runInstrs_pulses_counted (ds : List Nat) {s : State} (es : List Nat) (h : CoreInv s)
    (hp : s.PR = true) (hs : s.SF = true) (hes : EntriesAre s es)
    (hlen : es.length + ds.length ≤ N_DATA_EDGES) (hv : ∀ d ∈ ds, ValidPulse s.cfg d)
    (hoff : ∀ d ∈ ds, ¬ SampleIn d s.cfg.SYNC_LOW s.cfg.SYNC_TOL) :
    ∃ t, runInstrs (pulses s ds) s = .next t ∧ CoreInv t ∧ t.cfg = s.cfg ∧ t.SF = true
      ∧ EntriesAre t (es ++ ds) := by
  induction ds generalizing s es with
  | nil => exact ⟨s, rfl, h, rfl, hs, by rwa [List.append_nil]⟩
  | cons d ds ih =>
    have hd : ValidPulse s.cfg d := hv d List.mem_cons_self
    have hroom : es.length < N_DATA_EDGES := by rw [List.length_cons] at hlen; omega
    have hf : s.FR = false := h.not_ready fun _ => (hes hs).1 ▸ hroom
    have hchange := afterPulse_pulseChange h hf hd
    obtain ⟨hs', hes'⟩ := hchange.counted_of_off_sync h hes hs (hoff d List.mem_cons_self)
    rw [runInstrs_pulses_cons h hp hf hd, List.append_cons, ← afterPulse_cfg s d]
    refine ih (es ++ [d]) (hchange.coreInv h) ((afterPulse_PR s d).trans hp) hs' hes'
      (by simpa [Nat.add_assoc, Nat.add_comm 1] using hlen) ?_ ?_
    all_goals rw [afterPulse_cfg]
    · exact fun x hx => hv x (List.mem_cons_of_mem d hx)
    · exact fun x hx => hoff x (List.mem_cons_of_mem d hx)

/-! ### The POLL of a frame whose checksum agrees -/

/-- R165, R166, R168: POLL with every pair classified and the checksum of the packed bytes right. -/
theorem pollStep_ok {s : State} {bit : Nat → Bool} {f : Vector Byte 7} (hf : s.FR = true)
    (hbits : ∀ j, j < N_BITS → PairIs s j (bit j)) (hpack : PacksTo bit f)
    (hsum : byteSum f % 256 = f[6].toNat) : pollStep s = pollOk f s := by
  have hframe : packFrame ((List.range N_BITS).map bit) = f :=
    packFrame_eq (fun j hj => by simp [hj]) hpack
  have hcheck : checksum f = f[6] := (checksum_eq_iff f f[6]).2 hsum
  unfold pollStep
  rw [decode_frame_ok hbits, if_neg (by simp [hf])]
  simp only [hframe, validateFrame]
  rw [if_neg (not_not_intro hcheck)]

/-- R165: the bit `8n + m` of a frame is bit `7 - m` of its byte `n`. -/
def frameBit (f : Vector Byte 7) (j : Nat) : Bool := (f.toList.getD (j / 8) 0).getLsbD (7 - j % 8)

theorem packsTo_frameBit (f : Vector Byte 7) : PacksTo (frameBit f) f := by
  intro n hn m hm
  have hbyte : (8 * n + m) / 8 = n := by omega
  have hpos : (8 * n + m) % 8 = m := by omega
  rw [frameBit, hbyte, hpos]
  simp [hn]

theorem EntriesAre.getD {s : State} {ds : List Nat} (h : EntriesAre s ds) (hs : s.SF = true) {k : Nat}
    (hk : k < s.EC) : ds.getD k 0 = dataDuration s (k + 1) := by
  rw [List.getD_eq_getElem?_getD, (h hs).2 k hk, Option.getD_some]

/-- R161: the pairs of a complete frame are the pairs of the durations since the match, in order. -/
theorem pairIs_of_entriesAre {s : State} {data : List Nat} (hdata : EntriesAre s data) (hs : s.SF = true)
    (hlen : data.length = N_DATA_EDGES) {j : Nat} {b : Bool} (hj : j < N_BITS)
    (hpair : ClassifiesAs s.cfg (data.getD (2 * j) 0) (data.getD (2 * j + 1) 0) b) : PairIs s j b := by
  have hEC : s.EC = 112 := (hdata hs).1.symm.trans hlen
  simp only [N_BITS] at hj
  rw [hdata.getD hs (by omega), hdata.getD hs (by omega)] at hpair
  rw [PairIs, Nat.add_comm 1, Nat.add_comm 2]
  exact hpair

/-- Settles O58: the sync pairs anchor at the last of them, the data durations are the 112 entries after it, and POLL
decodes these. -/
theorem pipelineDecodesAFrame : Obligations.PipelineDecodesAFrame := by
  intro s sync data f h hp hs hslen hsv hpairs hdlen hdv hoff hbits hsum
  obtain ⟨anchored, hrun, ha, hap, hacfg, haSF, haEC⟩ :=
    runInstrs_pulses_sync data h hp hs ⟨hslen, hpairs⟩ hsv
  obtain ⟨ready, hready, hr, hrcfg, hrSF, hentries⟩ :=
    runInstrs_pulses_counted data [] ha hap haSF (entriesAre_nil haEC) (by simp [hdlen])
      (hacfg.symm ▸ hdv) (hacfg.symm ▸ hoff)
  rw [List.nil_append] at hentries
  have hFR : ready.FR = true := hr.ready_iff.2 ⟨hrSF, (hentries hrSF).1 ▸ hdlen⟩
  have hframe : ∀ j, j < N_BITS → PairIs ready j (frameBit f j) := by
    intro j hj
    refine pairIs_of_entriesAre hentries hrSF hdlen hj ?_
    have hbyte : j / 8 < 7 := by simp only [N_BITS] at hj; omega
    have hpair := hbits (j / 8) hbyte (j % 8) (Nat.mod_lt j (by decide))
    rwa [packsTo_frameBit f (j / 8) hbyte (j % 8) (Nat.mod_lt j (by decide)), Nat.div_add_mod,
      ← hacfg, ← hrcfg] at hpair
  have hpoll : execState .poll ready = pollOk f (clearOutputs ready) :=
    pollStep_ok hFR hframe (packsTo_frameBit f) hsum
  refine ⟨ready, pollOk f (clearOutputs ready), hrun.trans hready, hFR, ?_, rfl, rfl, rfl, rfl, rfl⟩
  rw [exec_eq, hpoll]

end Sys2Proof.Machine
end

section
/-! The frame assembler (42_frame_assembler.md): POLL's four outcomes on the pending frame, the checksum, the phase
transitions, and that FrameOverrun is never raised; and the statements O52, O26, O21, O22, O23, O24, O28 and O46. -/

namespace Sys2Proof.Machine

/-! ### FrameOverrun is never raised -/

/-- R153: from a state that meets the invariants an edge that stores raises no error, since the count has room. -/
theorem ingest_err_of_coreInv {s : State} (h : CoreInv s) (hf : s.FR = false) (t d : Nat) :
    (ingest d { clearOutputs s with LET := t }).err = none := by
  rcases ingest_cases d { clearOutputs s with LET := t } with
    ⟨-, he⟩ | ⟨-, ⟨-, he⟩ | ⟨-, -, he⟩ | ⟨-, -, he⟩ | ⟨hs, hgt, -⟩⟩
  case inr.inr.inr.inr =>
    obtain ⟨hsucc, hroom⟩ := h.count_room hf hs
    have hEC : (stored d { clearOutputs s with LET := t }).EC = s.EC + 1 := hsucc
    omega
  all_goals rw [he]; rfl

/-- R213: from a state that meets the invariants no instruction emits the code 2. -/
theorem execState_err_ne_frameOverrun {s : State} (h : CoreInv s) (i : Instr) (info : Nat) :
    (execState i s).err ≠ some ⟨2, info⟩ := by
  rcases execState_cases i s with ⟨t, -, he⟩ | ⟨-, he⟩ | ⟨-, he⟩ | ⟨-, -, ⟨_, he⟩ | ⟨_, he⟩⟩
  all_goals rw [he]
  · rcases edgeStep_cases (lowBits s.cfg.TS_W t) (clearOutputs s) with
      ⟨-, hr⟩ | ⟨-, -, hr⟩ | ⟨-, -, -, hr⟩ | ⟨-, hf, -, hr⟩
    all_goals rw [hr]
    case inr.inr.inr => rw [ingest_err_of_coreInv h hf]; nofun
    all_goals simp [CoreError.code]
  · simp
  · rcases pollStep_cases (clearOutputs s) with ⟨-, hr⟩ | ⟨-, _, hr⟩ | ⟨-, _, -, hr⟩ | ⟨-, _, -, hr⟩
    all_goals simp [hr, pollBitError, pollChecksumError, pollOk, CoreError.code]
  · simp [answer]
  · simp [illegalCommand, CoreError.code]

/-- R216: a report of any other error than FrameOverrun leaves a legal code. -/
theorem Reports.legalLastErr {s s' : State} (hr : Reports s s') (hl : LegalLastErr s)
    (hno : ∀ info, s'.err ≠ some ⟨2, info⟩) : LegalLastErr s' := by
  unfold LegalLastErr
  rcases hr with ⟨-, hlast⟩ | ⟨e, herr, hlast⟩
  · rw [hlast]
    exact hl
  · cases e with
    | frameOverrun ec => exact absurd herr (hno ec)
    | _ => simp [hlast, CoreError.code]

theorem execState_legalLastErr {s : State} (h : CoreInv s) (hl : LegalLastErr s) (i : Instr) :
    LegalLastErr (execState i s) := by
  by_cases hreset : i = .reset
  · subst hreset
    exact .inl rfl
  · exact (execState_reports hreset s).legalLastErr hl (execState_err_ne_frameOverrun h i)

/-- Settles O52: an idle step has no event, and a step that performs an instruction emits no code 2. -/
theorem frameOverrunNeverRaised : Obligations.FrameOverrunNeverRaised := by
  intro s s' h hl hstep
  obtain ⟨ins, n, rfl | ⟨i, rfl⟩⟩ := step_next_cases hstep
  · exact ⟨nofun, hl⟩
  · have h := h.with_ports ins n
    refine ⟨?_, execState_legalLastErr h hl i⟩
    rintro ⟨code, info⟩ he rfl
    exact execState_err_ne_frameOverrun h i info he

/-! ### Classification -/

/-- Settles O26: the two bits and NONE are the cases of `classify`, and NONE is that both patterns fit or neither. -/
theorem classificationByPatterns : Obligations.ClassificationByPatterns := by
  intro c h l
  have hnone : ClassifiesNone c h l
      ↔ (¬ FitsBit1 c h l ∧ ¬ FitsBit0 c h l) ∨ (FitsBit1 c h l ∧ FitsBit0 c h l) :=
    iff_iff_and_or_not_and_not.trans or_comm
  exact ⟨classify_eq_some_iff c h l true, classify_eq_some_iff c h l false,
    (classify_eq_none_iff c h l).trans hnone⟩

/-! ### POLL -/

/-- Settles O21: with no frame pending POLL only responds. -/
theorem pollNotReady : Obligations.PollNotReady := by
  intro s hf
  have hpoll : execState .poll s = respond false 0x00 (clearOutputs s) :=
    pollStep_of_not_ready (s := clearOutputs s) hf
  rw [exec_eq, hpoll]
  rfl

/-- R164: POLL where pair `j` is the first to classify NONE. -/
theorem pollStep_bitError {s : State} {j : Nat} (hf : s.FR = true) (hj : j < N_BITS)
    (hbits : ∀ k, k < j → ∃ b, PairIs s k b) (hnone : PairIsNone s j) : pollStep s = pollBitError j s := by
  unfold pollStep
  rw [decode_frame_error hj hbits hnone, if_neg (by simp [hf])]

/-- Settles O22: the decode stops at pair `j`, and the raise follows the capture reset. -/
theorem pollAbortsAtTheFirstBadPair : Obligations.PollAbortsAtTheFirstBadPair := by
  intro s j hf hj hbits hnone
  have hpoll : execState .poll s = pollBitError j (clearOutputs s) :=
    pollStep_bitError (s := clearOutputs s) hf hj hbits hnone
  rw [exec_eq, hpoll]
  rfl

/-- R165, R166: POLL with every pair classified puts the packed frame to the checksum test. -/
theorem pollStep_eq_validateFrame {s : State} {bit : Nat → Bool} {f : Vector Byte 7} (hf : s.FR = true)
    (hbits : ∀ j, j < N_BITS → PairIs s j (bit j)) (hpack : PacksTo bit f) :
    pollStep s = validateFrame f s := by
  have hframe : packFrame ((List.range N_BITS).map bit) = f :=
    packFrame_eq (fun j hj => by simp [hj]) hpack
  unfold pollStep
  rw [decode_frame_ok hbits, if_neg (by simp [hf])]
  simp only [hframe]

/-- R167: a frame whose checksum disagrees. -/
theorem validateFrame_of_wrong_sum {f : Vector Byte 7} (hsum : byteSum f % 256 ≠ f[6].toNat) (s : State) :
    validateFrame f s = pollChecksumError (checksum f) f[6] s :=
  if_pos (mt (checksum_eq_iff f f[6]).1 hsum)

/-- R167: the info of a checksum error, `c` in bits 15:8 and `byte[6]` in bits 7:0. -/
theorem checksum_info (c byte6 : Byte) : (CoreError.checksum c byte6).info = 256 * c.toNat + byte6.toNat := by
  rw [CoreError.info, BitVec.toNat_append, ← Nat.shiftLeft_add_eq_or_of_lt byte6.isLt, Nat.shiftLeft_eq,
    Nat.mul_comm]

/-- Settles O23: the packed frame fails the test, and the raise follows the capture reset. -/
theorem pollRejectsAWrongChecksum : Obligations.PollRejectsAWrongChecksum := by
  intro s bit f hf hbits hpack hsum
  have hpoll : execState .poll s = pollChecksumError (checksum f) f[6] (clearOutputs s) :=
    (pollStep_eq_validateFrame (s := clearOutputs s) hf hbits hpack).trans (validateFrame_of_wrong_sum hsum _)
  rw [exec_eq, hpoll, ← checksum_toNat, ← checksum_info]
  rfl

/-- Settles O24: the packed frame passes the test, and the capture reset follows the write of `FRAME`. -/
theorem pollValidatesTheFrame : Obligations.PollValidatesTheFrame := by
  intro s bit f hf hbits hpack hsum
  have hpoll : execState .poll s = pollOk f (clearOutputs s) :=
    pollStep_ok (s := clearOutputs s) hf hbits hpack hsum
  rw [exec_eq, hpoll]
  rfl

/-! ### The checksum -/

/-- Replacing one of the six bytes summed replaces its term of the sum. -/
theorem byteSum_set (f : Vector Byte 7) {n : Nat} (h : n < 6) (v : Byte) :
    byteSum (f.set n v) + f[n].toNat = byteSum f + v.toNat := by
  have hn : n = 0 ∨ n = 1 ∨ n = 2 ∨ n = 3 ∨ n = 4 ∨ n = 5 := by omega
  rcases hn with rfl | rfl | rfl | rfl | rfl | rfl
  all_goals simp +arith [byteSum]

/-- R174: the checksum tells any two values of one byte apart. -/
theorem checksum_set_eq_iff (f : Vector Byte 7) {n : Nat} (h : n < 6) (v : Byte) :
    checksum (f.set n v) = checksum f ↔ v = f[n] := by
  have hsum := byteSum_set f h v
  have hold := f[n].isLt
  have hnew := v.isLt
  rw [checksum_eq_iff, checksum_toNat, ← BitVec.toNat_inj]
  omega

theorem xor_twoPow_ne (b : Byte) {k : Nat} (hk : k < 8) : b ^^^ BitVec.twoPow 8 k ≠ b := by
  intro h
  have hbit := congrArg (BitVec.getLsbD · k) h
  simp [hk] at hbit

/-- Settles O28: a byte with one bit flipped is another value, which the sum tells apart. -/
theorem checksumCatchesSingleBitFlips : Obligations.ChecksumCatchesSingleBitFlips := by
  intro f
  refine ⟨checksum_eq_iff f f[6], fun n h k hk hcheck hflip => ?_⟩
  rw [← hcheck, checksum_set_eq_iff f h] at hflip
  exact xor_twoPow_ne f[n] hk hflip

/-! ### The phase transitions -/

theorem phase_eq_searching_iff (s : State) : phase s = .searching ↔ s.SF = false ∧ s.FR = false := by
  unfold phase
  cases s.SF <;> cases s.FR <;> simp

theorem phase_eq_data_iff (s : State) : phase s = .data ↔ s.SF = true ∧ s.FR = false := by
  unfold phase
  cases s.SF <;> cases s.FR <;> simp

theorem phase_eq_ready_iff (s : State) : phase s = .ready ↔ s.SF = true ∧ s.FR = true := by
  unfold phase
  cases s.SF <;> cases s.FR <;> simp

theorem phase_eq_noPhase_iff (s : State) : phase s = .noPhase ↔ s.SF = false ∧ s.FR = true := by
  unfold phase
  cases s.SF <;> cases s.FR <;> simp

/-- The phase is read from `SF` and `FR` alone. -/
theorem phase_congr {s s' : State} (hSF : s'.SF = s.SF) (hFR : s'.FR = s.FR) : phase s' = phase s := by
  unfold phase
  rw [hSF, hFR]

/-- R22: under the invariants the pair `SF = 0`, `FR = 1` does not occur. -/
theorem CoreInv.phase_ne_noPhase {s : State} (h : CoreInv s) : phase s ≠ .noPhase := by
  rw [Ne, phase_eq_noPhase_iff]
  rintro ⟨hSF, hFR⟩
  cases hSF.symm.trans (h.ready_synced hFR)

theorem CoreInv.FR_eq_false_iff {s : State} (h : CoreInv s) : s.FR = false ↔ phase s ≠ .ready := by
  rw [Ne, phase_eq_ready_iff, ← Bool.not_eq_true]
  exact not_congr ⟨fun hFR => ⟨h.ready_synced hFR, hFR⟩, And.right⟩

/-- R170: POLL leads from READY to SEARCHING. -/
theorem phase_poll_of_ready {s : State} (hf : s.FR = true) : phase (execState .poll s) = .searching := by
  rw [phase_eq_searching_iff]
  rcases pollStep_response_cases (clearOutputs s) with ⟨hnot, -⟩ | ⟨-, -, hFR, hSF, -⟩
  · cases hf.symm.trans hnot
  · exact ⟨hSF, hFR⟩

/-- A command other than a POLL that finds a frame pending keeps the phase. -/
theorem phase_of_command {i : Instr} {s : State} (hc : isCommand i = true) (h : i ≠ .poll ∨ s.FR = false) :
    phase (execState i s) = phase s := by
  obtain ⟨-, hSF, -, hFR⟩ := execState_capture_of_command hc h
  exact phase_congr hSF hFR

/-- R101: an edge that primes the core keeps the phase. -/
theorem phase_edge_of_unprimed {s : State} (hp : s.PR = false) (t : Nat) :
    phase (execState (.edge t) s) = phase s := by
  have hprime := edgeStep_prime (s := clearOutputs s) (t := lowBits s.cfg.TS_W t) hp
  rw [execState, hprime]
  rfl

/-- R103: an edge while a frame is pending is dropped. -/
theorem phase_edge_of_ready {s : State} (hf : s.FR = true) (t : Nat) :
    phase (execState (.edge t) s) = phase s := by
  rw [execState_edge_of_ready hf]
  rfl

/-- R104: a noise edge leads to SEARCHING. -/
theorem phase_edge_of_noise {s : State} {t d : Nat} (hp : s.PR = true) (hf : s.FR = false)
    (hd : IsDuration s.cfg s.LET t d) (hv : ¬ ValidPulse s.cfg d) :
    phase (execState (.edge t) s) = .searching ∧ (execState (.edge t) s).EC = 0 := by
  rw [execState_edge_noise hp hf hd hv]
  exact ⟨rfl, rfl⟩

/-- R107, R134: a valid edge that completes the sync pattern leads to DATA. -/
theorem phase_afterPulse_of_match {s : State} (h : CoreInv s) (hf : s.FR = false) {d : Nat}
    (hv : ValidPulse s.cfg d) (hw : CompletesSync s d) :
    phase (afterPulse s d) = .data ∧ (afterPulse s d).EC = 0
      ∧ (afterPulse s d).ANCHOR = (afterPulse s d).IDX := by
  rcases afterPulse_cases h hf (d := d) with ⟨-, hSF, hFR, hEC, hANCHOR⟩ | ⟨hnone, -⟩
  · exact ⟨(phase_eq_data_iff _).2 ⟨hSF, hFR⟩, hEC, hANCHOR⟩
  · exact absurd ((afterPulse_window_iff h.cfg_wf hv).2 hw) hnone

/-- R150 to R152: a valid edge without a match keeps SEARCHING, and in DATA counts one more, up to READY at 112. -/
theorem phase_afterPulse_of_no_match {s : State} (h : CoreInv s) (hf : s.FR = false) {d : Nat}
    (hv : ValidPulse s.cfg d) (hw : ¬ CompletesSync s d) :
    (phase s = .searching → phase (afterPulse s d) = .searching)
    ∧ (phase s = .data → (afterPulse s d).EC = s.EC + 1 ∧ (afterPulse s d).EC ≤ 112
      ∧ (afterPulse s d).ANCHOR = s.ANCHOR ∧ ((afterPulse s d).EC < 112 → phase (afterPulse s d) = .data)
      ∧ ((afterPulse s d).EC = 112 → phase (afterPulse s d) = .ready)) := by
  rw [phase_eq_searching_iff, phase_eq_searching_iff, phase_eq_data_iff, phase_eq_data_iff, phase_eq_ready_iff]
  rcases afterPulse_cases h hf (d := d) with
    ⟨hwin, -⟩ | ⟨-, ⟨hs, hSF, hFR⟩ | ⟨hs, hSF, hEC, hANCHOR, hFR⟩⟩
  · exact absurd ((afterPulse_window_iff h.cfg_wf hv).1 hwin) hw
  · exact ⟨fun _ => ⟨hSF, hFR⟩, fun hx => by cases hs.symm.trans hx.1⟩
  · have hroom := (h.count_room hf hs).2
    have hsynced : ¬ s.SF = false := ne_false_of_eq_true hs
    refine ⟨fun hx => absurd hx.1 hsynced, fun _ => ⟨hEC, hEC ▸ hroom, hANCHOR, fun hlt => ?_, fun heq => ?_⟩⟩
    · exact ⟨hSF, Bool.eq_false_iff.2 fun hx => hlt.ne (hEC.trans (hFR.1 hx))⟩
    · exact ⟨hSF, hFR.2 (hEC.symm.trans heq)⟩

/-- Settles O46, a row of R154's table from each of the lemmas above. -/
theorem phaseTransitionTable : Obligations.PhaseTransitionTable := by
  intro i s s' h _ hexec
  obtain rfl := (exec_next_iff _ _ _).1 hexec
  refine ⟨((execState_captureChange h i).coreInv h).phase_ne_noPhase, ?reset, ?pollReady, ?pollNotReady, ?command,
    ?edge⟩
  case reset => rintro rfl; rfl
  case pollReady => rintro rfl hready; exact phase_poll_of_ready ((phase_eq_ready_iff s).1 hready).2
  case pollNotReady => rintro rfl hne; exact phase_of_command rfl (.inr (h.FR_eq_false_iff.2 hne))
  case command => exact fun hc hne => phase_of_command hc (.inl hne)
  case edge =>
    rintro t rfl
    refine ⟨fun hready => ?_, fun hp => phase_edge_of_unprimed hp t, fun d hd hp hne => ?_⟩
    · rw [phase_edge_of_ready ((phase_eq_ready_iff s).1 hready).2, hready]
    · have hf := h.FR_eq_false_iff.2 hne
      refine ⟨phase_edge_of_noise hp hf hd, fun hv hw => ?_, fun hv hw => ?_⟩
      all_goals rw [execState_edge_afterPulse hp hf hd hv]
      · exact phase_afterPulse_of_match h hf hv hw
      · exact phase_afterPulse_of_no_match h hf hv hw

end Sys2Proof.Machine
end

section
/-! The consumer's reads (43_consumer_reads.md): what an answer and an illegal word write, and the count as a response;
and the statements O14, O15, O17, O18 and O19. -/

namespace Sys2Proof.Machine

/-- R85, R198: an instruction that answers completes with `ILL = 0` and no event, and writes no element. -/
theorem exec_of_answer {i : Instr} {data : Byte} {s : State} (h : execState i s = answer data s) :
    exec i s = .next { s with rsp := some (0#1 ++ data), err := none } := by
  rw [exec_eq, h]
  rfl

/-- R197, R217: an illegal word writes the outputs and `LAST_ERR` alone. -/
theorem illegalCommand_eq (w : Byte) (s : State) :
    illegalCommand w s = { s with LAST_ERR := 6, rsp := some 0x100, err := some ⟨6, w.toNat⟩ } := rfl

/-- Settles O14: whatever the argument, NOP answers `0x00`. -/
theorem nopChangesNothing : Obligations.NopChangesNothing := fun _ _ =>
  exec_of_answer (data := 0x00) rfl

/-- Settles O15: the index 7 is no byte of the frame, so that term acts as the illegal word. -/
theorem rdframeAnswersTheByte : Obligations.RdframeAnswersTheByte := by
  refine fun n s => ⟨fun h => ?_, fun h => ?_⟩
  · have hbyte : execState (.rdframe n) s = answer s.FRAME[n.toNat] s := dif_pos h
    exact exec_of_answer hbyte
  · have hillegal : execState (.rdframe n) s = execState (.illegal 0x27) s := dif_neg h.not_lt
    rw [exec_eq, exec_eq, hillegal]

/-- R194: a count that 8 bits hold is its own zero-extension. -/
theorem edgeCountView_of_lt {s : State} (h : s.EC < 256) : 0#1 ++ edgeCountView s = BitVec.ofNat 9 s.EC := by
  have hview : edgeCountView s = BitVec.ofNat 8 s.EC := if_pos h
  apply BitVec.eq_of_toNat_eq
  rw [hview, BitVec.toNat_append, BitVec.toNat_ofNat, BitVec.toNat_ofNat, Nat.zero_shiftLeft, Nat.zero_or,
    BitVec.toNat_ofNat]
  omega

/-- Settles O17: `RDSTAT 1` answers the view, which is the count where 8 bits hold it. -/
theorem rdstatOneAnswersTheCount : Obligations.RdstatOneAnswersTheCount := by
  intro s
  have hview : exec .rdstat1 s = .next { s with rsp := some (0#1 ++ edgeCountView s), err := none } :=
    exec_of_answer rfl
  exact ⟨fun h => by rw [hview, edgeCountView_of_lt h], fun _ => ⟨_, hview⟩⟩

/-- Settles O18: each view is one register, answered as it stands. -/
theorem rdstatAnswersAnchorAndIndex : Obligations.RdstatAnswersAnchorAndIndex :=
  fun _ => ⟨exec_of_answer rfl, exec_of_answer rfl⟩

/-- Settles O19, from the state that `illegalCommand` leaves. -/
theorem illegalWordOnlySetsLastErr : Obligations.IllegalWordOnlySetsLastErr := by
  intro w s
  have hillegal : execState (.illegal w) s = illegalCommand w s := rfl
  rw [exec_eq, hillegal, illegalCommand_eq]

end Sys2Proof.Machine
end

section
/-! The exceptions (60_exceptions.md): a step never halts, and which of the transactions presented together it
takes; and the statements O9, O7 and O8. -/

namespace Sys2Proof.Machine

/-- Settles O9: an idle step clears the outputs, and no instruction's meaning stops. -/
theorem everyStepAnswersNext : Obligations.EveryStepAnswersNext := by
  intro s hc
  obtain ⟨ins, n, hidle | ⟨x, hexec⟩⟩ := step_cases hc
  · exact ⟨_, hidle⟩
  · exact ⟨_, hexec.trans (exec_eq _ _)⟩

/-- A step performs the word that the ports give it. -/
theorem step_of_fetch_word {s s' : State} {x : PortWord} (hc : s.cfg.wf = true)
    (h : fetch s = .word x s') : step s = exec (decode s'.cfg x) s' := by
  unfold step
  rw [if_pos hc, h]

section
variable {s : State} {p : Presentation} {rest : List Presentation} {t : Nat} {w : Byte}

/-- R226: of an edge and a command that arrive together one is taken, whichever the free value says. -/
theorem fetch_edge_and_command (hin : s.inputs = p :: rest) (ht : p.edge = some t) (hw : p.command = some w) :
    fetch s = takeEdge t p rest { s with draws := s.draws + 1 }
      ∨ fetch s = takeCommand w p rest { s with draws := s.draws + 1 } := by
  unfold fetch
  simp only [hin, ht, hw]
  split
  · exact .inl rfl
  · exact .inr rfl

/-- R226: an edge without a command is taken, with RESET presented or not. -/
theorem fetch_edge (hin : s.inputs = p :: rest) (ht : p.edge = some t) (hw : p.command = none) :
    fetch s = takeEdge t p rest s := by
  unfold fetch
  simp only [hin, ht, hw]

/-- R226: a command without an edge is taken, with RESET presented or not. -/
theorem fetch_command (hin : s.inputs = p :: rest) (ht : p.edge = none) (hw : p.command = some w) :
    fetch s = takeCommand w p rest s := by
  unfold fetch
  simp only [hin, ht, hw]

end

/-- Settles O7: each order is one value of the draw, and the transaction not taken stays at its port. -/
theorem togetherInOneOrderOrTheOther : Obligations.TogetherInOneOrderOrTheOther := by
  intro s t w r rest hc hin
  obtain hedge | hcommand := fetch_edge_and_command hin rfl rfl
  · exact .inl (step_of_fetch_word hc hedge)
  · exact .inr (step_of_fetch_word hc hcommand)

/-- Settles O8: RESET is what remains of the presentation once the edge or the command is taken, and alone it is a
presentation of one transaction. -/
theorem resetAfterTheOthers : Obligations.ResetAfterTheOthers := by
  refine fun s rest hc => ⟨fun t hin => ?_, fun w hin => ?_, fun hin => ?_⟩
  · exact step_of_fetch_word hc (fetch_edge hin rfl rfl)
  · exact step_of_fetch_word hc (fetch_command hin rfl rfl)
  · exact step_single (x := .reset) hc hin

end Sys2Proof.Machine
end

section
/-! Reset and hazards (70_reset_and_hazards.md): what RESET leaves, how soon a sync can match after it and after a
POLL, and who writes `FRAME`; and the statements O12, O44, O56, O38 and O39. -/

namespace Sys2Proof.Machine

/-! ### RESET -/

/-- Settles O12: the meaning of RESET is the reset state under the core's own configuration. -/
theorem resetGivesResetValues : Obligations.ResetGivesResetValues := exec_eq .reset

/-! ### The owner of `FRAME` -/

/-- R168: POLL writes `FRAME` only where it validates the pending frame. -/
theorem pollStep_of_frame_ne {s : State} (h : (pollStep s).FRAME ≠ s.FRAME) :
    s.FR = true ∧ (pollStep s).rsp = some 0x001 ∧ (pollStep s).FV = true := by
  rcases pollStep_cases s with ⟨-, he⟩ | ⟨-, _, he⟩ | ⟨-, _, -, he⟩ | ⟨hf, f, -, he⟩
  case inr.inr.inr => rw [he]; exact ⟨hf, rfl, rfl⟩
  all_goals rw [he] at h; exact absurd rfl h

/-- Settles O44: EDGE and the commands that only answer keep `FRAME`, and POLL writes it only with OK. -/
theorem frameChangesOnlyOnPollOk : Obligations.FrameChangesOnlyOnPollOk := by
  intro i s s' hexec hne
  obtain rfl := (exec_next_iff _ _ _).1 hexec
  rcases execState_cases i s with ⟨t, -, he⟩ | ⟨hi, -⟩ | ⟨hi, he⟩ | ⟨-, -, ⟨_, he⟩ | ⟨_, he⟩⟩
  · rw [he] at hne
    exact absurd (edgeStep_FRAME _ _) hne
  · exact .inl hi
  · rw [he] at hne ⊢
    exact .inr ⟨hi, pollStep_of_frame_ne hne⟩
  all_goals rw [he] at hne; exact absurd rfl hne

/-! ### Entries that keep the sync pattern from matching -/

/-- R131, R132: the reference of the sample `p` back from the newest of a sync window, the newest being a low. -/
def syncReference (c : Config) (p : Nat) : Nat := if p % 2 = 1 then c.SYNC_HIGH else c.SYNC_LOW

/-- Each of the 8 newest entries of a matching window passes against its own reference. -/
theorem sampleIn_of_syncWindow {s : State} (h : SyncWindow s.cfg s.RB s.IDX.toNat) {p : Nat} (hp : p < 8) :
    SampleIn (back s p) (syncReference s.cfg p) s.cfg.SYNC_TOL := by
  obtain ⟨hhigh, hlow⟩ := (syncWindow_iff_back s).1 h ((7 - p) / 2) (by omega)
  unfold syncReference
  split
  · rwa [show 7 - 2 * ((7 - p) / 2) = p by omega] at hhigh
  · rwa [show 6 - 2 * ((7 - p) / 2) = p by omega] at hlow

/-- After each of the next `n` appends some entry that the ring holds now fails at the place it then has in the
window: the entry `k` back has moved to `k + i + 1` once `i + 1` durations are appended. -/
def BlocksSync (s : State) (n : Nat) : Prop :=
  ∀ i, i < n → ∃ k, k + i < 7 ∧ ¬ SampleIn (back s k) (syncReference s.cfg (k + i + 1)) s.cfg.SYNC_TOL

theorem BlocksSync.mono {s : State} {m n : Nat} (h : BlocksSync s n) (hm : m ≤ n) : BlocksSync s m :=
  fun i hi => h i (hi.trans_le hm)

/-- An append uses up one of the appends that are blocked, and completes no pattern. -/
theorem BlocksSync.after_append {s : State} {n d : Nat} (hb : BlocksSync s (n + 1)) (h : CoreInv s)
    (hv : ValidPulse s.cfg d) :
    ¬ SyncWindow s.cfg (afterPulse s d).RB (afterPulse s d).IDX.toNat ∧ BlocksSync (afterPulse s d) n := by
  have hmoved : ∀ k, k < 7 → back (afterPulse s d) (k + 1) = back s k := fun k hk => by
    have hcap := h.bounds
    exact back_afterPulse_succ h hv (by omega)
  refine ⟨fun hw => ?_, fun i hi => ?_⟩
  · obtain ⟨k, hk, hfails⟩ := hb 0 n.succ_pos
    have hsample := sampleIn_of_syncWindow (s := afterPulse s d) (by rwa [afterPulse_cfg]) (p := k + 1)
      (Nat.succ_lt_succ hk)
    rw [hmoved k hk, afterPulse_cfg] at hsample
    exact hfails hsample
  · obtain ⟨k, hk, hfails⟩ := hb (i + 1) (Nat.succ_lt_succ hi)
    refine ⟨k + 1, by omega, ?_⟩
    rw [hmoved k (by omega), afterPulse_cfg, Nat.add_right_comm k 1 i]
    exact hfails

theorem CoreInv.not_ready_of_searching {s : State} (h : CoreInv s) (hs : s.SF = false) : s.FR = false :=
  h.not_ready fun hx => by cases hs.symm.trans hx

/-- An edge while searching, with the next append blocked: noise appends nothing, and a valid duration does not
match. -/
theorem BlocksSync.edge {s : State} {n : Nat} (hb : BlocksSync s (n + 1)) (h : CoreInv s) (hp : s.PR = true)
    (hs : s.SF = false) (t : Nat) :
    (execState (.edge t) s).SF = false ∧ BlocksSync (execState (.edge t) s) n := by
  have hf := h.not_ready_of_searching hs
  have hd := isDuration_duration s.cfg s.LET t
  by_cases hv : ValidPulse s.cfg (duration s.cfg (lowBits s.cfg.TS_W t) s.LET)
  · obtain ⟨hnone, hb'⟩ := hb.after_append h hv
    rw [execState_edge_afterPulse hp hf hd hv]
    rcases afterPulse_cases h hf with ⟨hwindow, -⟩ | ⟨-, ⟨-, hSF, -⟩ | ⟨hsynced, -⟩⟩
    · exact absurd hwindow hnone
    · exact ⟨hSF, hb'⟩
    · cases hs.symm.trans hsynced
  · rw [execState_edge_noise hp hf hd hv]
    exact ⟨rfl, hb.mono n.le_succ⟩

/-- A searching core keeps searching along as many edges as there are appends blocked, whatever their timestamps. -/
theorem runInstrs_edges_searching (ts : List Nat) {s : State} (h : CoreInv s) (hp : s.PR = true)
    (hs : s.SF = false) (hb : BlocksSync s ts.length) :
    ∃ v, runInstrs (ts.map .edge) s = .next v ∧ phase v = .searching := by
  induction ts generalizing s with
  | nil => exact ⟨s, rfl, (phase_eq_searching_iff s).2 ⟨hs, h.not_ready_of_searching hs⟩⟩
  | cons t ts ih =>
    obtain ⟨hs', hb'⟩ := hb.edge h hp hs t
    rw [List.map_cons, runInstrs_cons]
    exact ih ((execState_captureChange h _).coreInv h) (edgeStep_PR _ _) hs' hb'

/-! ### After reset -/

/-- R133 (b): after reset a window over fewer than 8 appended durations has the oldest entry 0, a zero high. -/
theorem blocksSync_of_empty_ring {s : State} (hRB : s.RB = []) (hzero : s.cfg.SYNC_TOL < s.cfg.SYNC_HIGH) :
    BlocksSync s 7 := by
  intro i hi
  have hback : back s (6 - i) = 0 := by rw [back, hRB]; rfl
  have holdest : syncReference s.cfg (6 - i + i + 1) = s.cfg.SYNC_HIGH := by
    rw [Nat.sub_add_cancel (by omega)]
    rfl
  refine ⟨6 - i, by omega, ?_⟩
  rw [hback, holdest, SampleIn]
  omega

/-- Settles O56: the first edge primes and appends nothing, and the seven appends that may follow are blocked. -/
theorem noSyncBeforeTheNinthEdge : Obligations.NoSyncBeforeTheNinthEdge := by
  intro c ts hc hzero hlen
  have h := coreInv_resetWith hc
  cases ts with
  | nil => exact ⟨_, rfl, rfl, rfl⟩
  | cons t ts =>
    have hprime := edgePrimes (State.resetWith c) t rfl
    rw [exec_next_iff] at hprime
    have hb : BlocksSync (execState (.edge t) (State.resetWith c)) ts.length := by
      rw [← hprime]
      exact (blocksSync_of_empty_ring rfl hzero).mono (Nat.le_of_succ_le_succ hlen)
    obtain ⟨v, hrun, hv⟩ := runInstrs_edges_searching ts ((execState_captureChange h (.edge t)).coreInv h)
      (edgeStep_PR _ _) (by rw [← hprime]; rfl) hb
    rw [List.map_cons, runInstrs_cons]
    exact ⟨v, hrun, (phase_eq_searching_iff v).1 hv⟩

/-! ### After a POLL -/

/-- The duration `d` passes as no sync sample. -/
def OffSync (c : Config) (d : Nat) : Prop :=
  ¬ SampleIn d c.SYNC_HIGH c.SYNC_TOL ∧ ¬ SampleIn d c.SYNC_LOW c.SYNC_TOL

/-- A newest entry that passes as no sync sample blocks every window it is an older sample of. -/
theorem blocksSync_of_newest_off_sync {s : State} (h : CoreInv s)
    (hoff : OffSync s.cfg (Memory.read s.RB s.IDX.toNat)) : BlocksSync s 7 := by
  intro i hi
  have hnewest : back s 0 = Memory.read s.RB s.IDX.toNat := by
    rw [back, Int.natCast_zero, Int.sub_zero, ringIndex_natCast, Nat.mod_eq_of_lt h.IDX_in_ring]
  refine ⟨0, by omega, ?_⟩
  rw [hnewest, syncReference]
  split
  · exact hoff.1
  · exact hoff.2

/-- The state after an edge that is dropped in READY and a POLL. -/
def resumed (s : State) (t : Nat) : State := execState .poll (execState (.edge t) s)

theorem runInstrs_edge_poll (s : State) (t : Nat) : runInstrs [.edge t, .poll] s = .next (resumed s t) := by
  rw [runInstrs_cons, runInstrs_cons]
  rfl

theorem CoreInv.resumed {s : State} (h : CoreInv s) (t : Nat) : CoreInv (resumed s t) := by
  have hdropped := (execState_captureChange h (.edge t)).coreInv h
  exact (execState_captureChange hdropped .poll).coreInv hdropped

/-- R103, R252: `LET` is the dropped edge's timestamp, and neither step stores a duration. -/
theorem resumed_producer {s : State} (hf : s.FR = true) (t : Nat) :
    (resumed s t).LET = t % 2 ^ s.cfg.TS_W ∧ (resumed s t).PR = true ∧ (resumed s t).RB = s.RB
      ∧ (resumed s t).IDX = s.IDX := by
  rw [resumed, execState_edge_of_ready hf]
  exact execState_producer_of_command (i := .poll) nofun nofun _

theorem phase_resumed {s : State} (hf : s.FR = true) (t : Nat) : phase (resumed s t) = .searching := by
  rw [resumed, execState_edge_of_ready hf]
  exact phase_poll_of_ready hf

/-- R252: with the newest entry off the sync windows, a match needs 8 durations appended after the POLL. -/
theorem resumed_pulses_searching {s : State} (h : CoreInv s) (hf : s.FR = true) (t : Nat)
    (hoff : OffSync s.cfg (Memory.read s.RB s.IDX.toNat)) {ds : List Nat} (hlen : ds.length < 8) :
    ∃ v, runInstrs (pulses (resumed s t) ds) (resumed s t) = .next v ∧ phase v = .searching := by
  obtain ⟨-, hPR, hRB, hIDX⟩ := resumed_producer hf t
  obtain ⟨hSF, -⟩ := (phase_eq_searching_iff _).1 (phase_resumed hf t)
  have hb : BlocksSync (resumed s t) 7 := blocksSync_of_newest_off_sync (h.resumed t) <| by
    rwa [hRB, hIDX, resumed, execState_cfg, execState_cfg]
  refine runInstrs_edges_searching _ (h.resumed t) hPR hSF (hb.mono ?_)
  rw [length_pulseTimes]
  exact Nat.le_of_lt_succ hlen

/-- Settles O38: the newest entry is still the frame's last, and blocks seven appends where it is off sync. -/
theorem resumptionAfterPoll : Obligations.ResumptionAfterPoll := by
  intro s t h hf
  obtain ⟨hLET, hPR, hRB, hIDX⟩ := resumed_producer hf t
  exact ⟨resumed s t, runInstrs_edge_poll s t, hLET, hPR, hRB, hIDX, phase_resumed hf t,
    fun ds hhigh hlow hlen _ => resumed_pulses_searching h hf t ⟨hhigh, hlow⟩ hlen⟩

/-- R164: a POLL that responds OK or CSERR has classified every pair. -/
theorem pairIs_of_response {s : State}
    (hrsp : (pollStep s).rsp = some 0x001 ∨ (pollStep s).rsp = some 0x084) {j : Nat} (hj : j < N_BITS) :
    ∃ b, PairIs s j b := by
  unfold pollStep at hrsp
  split at hrsp
  · simp at hrsp
  · cases hdecode : decodePairs s.cfg s.RB s.ANCHOR.toNat N_BITS 0 with
    | error k => simp [hdecode, pollBitError] at hrsp
    | ok bits =>
      have hbit := ((decodePairs_ok_iff ..).1 hdecode).2 j hj
      rw [Nat.zero_add, classify_eq_some_iff, pairHigh_eq, pairLow_eq] at hbit
      exact ⟨_, hbit⟩

/-- R137, R163: the low of a pair that classifies passes as no sync sample where the bits' lows pass as none. -/
theorem BitLowsOffSync.low_off_sync {c : Config} (hoff : BitLowsOffSync c) {h l : Nat} {b : Bool}
    (hpair : ClassifiesAs c h l b) : OffSync c l := by
  cases b with
  | true => exact hoff l (.inl hpair.1.2)
  | false => exact hoff l (.inr hpair.1.2)

/-- R161: the low of a pending frame's last pair is the newest entry of the ring. -/
theorem CoreInv.dataDuration_last {s : State} (h : CoreInv s) (hf : s.FR = true) :
    dataDuration s N_DATA_EDGES = Memory.read s.RB s.IDX.toNat := by
  obtain ⟨hSF, hEC⟩ := h.ready_iff.1 hf
  rw [dataDuration, ← Int.natCast_add, ringIndex_natCast, ← hEC, ← h.index_of_count hSF]

/-- Settles O39: the newest entry is the low of the last pair, which the POLL classified. -/
theorem resyncAfterADecodedFrame : Obligations.ResyncAfterADecodedFrame := by
  intro s t h hf hoff
  refine ⟨resumed s t, runInstrs_edge_poll s t, fun hrsp ds hlen _ => ?_⟩
  rw [resumed, execState_edge_of_ready hf] at hrsp
  obtain ⟨b, hpair⟩ := pairIs_of_response hrsp (j := 55) (by decide)
  have hlow := hoff.low_off_sync hpair
  refine resumed_pulses_searching h hf t ?_ hlen
  rw [← h.dataDuration_last hf]
  exact hlow

end Sys2Proof.Machine
end
